-- ==== Sys2Proof/Word.lean ====
section
/-! DEFINITION. The words of the machine: the 32-bit pattern of a register, a cell and `pc`, and the two kinds of instruction field. -/

namespace Sys2Proof

/-- A 32-bit pattern: a register, a memory cell, `pc` or an instruction word (00 R4, XLEN = ILEN = 32; 41 R112).
`u(v)` of 00 R5 is `v.toNat`, `s(v)` is `v.toInt`. -/
abbrev Word := BitVec 32

/-- A register number as a field holds it: 3 bits, read unsigned, so never out of range (00 R4 REGBITS; 10 R12). -/
abbrev RegNum := BitVec 3

/-- The 16-bit `offsetField` of the I-format, before its sign extension (00 R4 OFFBITS; 30 R57). -/
abbrev OffsetField := BitVec 16

end Sys2Proof
end

