-- ==== Sys2Proof/Syntax.lean ====
section
/-! DEFINITION. The instruction set: one constructor per row of spec/opcode_table.json (30 R56). -/

namespace Sys2Proof

/-- The eight instructions, each with the fields its format names (30 R52 to R56). Two words that differ only in
ignored bits are the same instruction (30 R58), so no ignored bit stands here. Every term is well formed: a register
number has 3 bits (10 R12) and an offset 16 (30 R57), and no encoding is illegal or reserved (30 R60). -/
inductive Instr where
  /-- ADD, R-format, opcode 0 (41 R110). -/
  | add (regA regB destReg : RegNum)
  /-- NOR, R-format, opcode 1 (41 R111). -/
  | nor (regA regB destReg : RegNum)
  /-- LW, I-format, opcode 2 (42 R121). -/
  | lw (regA regB : RegNum) (offsetField : OffsetField)
  /-- SW, I-format, opcode 3 (42 R122). -/
  | sw (regA regB : RegNum) (offsetField : OffsetField)
  /-- BEQ, I-format, opcode 4 (43 R130). -/
  | beq (regA regB : RegNum) (offsetField : OffsetField)
  /-- JALR, J-format, opcode 5 (43 R131). -/
  | jalr (regA regB : RegNum)
  /-- HALT, O-format, opcode 6 (44 R140). -/
  | halt
  /-- NOOP, O-format, opcode 7 (44 R141). -/
  | noop
deriving DecidableEq, Repr

end Sys2Proof
end

