-- ==== Sys2Proof/Decode.lean ====
section
/-! DEFINITION. The decoder (unit DEC of 10 R24), total on all words (30 R60), and after it the encoder of 30 R59. -/

namespace Sys2Proof

/-- The eight operations the 3-bit opcode selects, without operands (30 R56). -/
inductive Opcode where
  | add | nor | lw | sw | beq | jalr | halt | noop
deriving DecidableEq, Repr

/-- The opcode map of 30 R56. It is total: `Laws.opcode_bits_ofBits` shows that the last arm takes 7 alone. -/
def Opcode.ofBits (b : BitVec 3) : Opcode :=
  match b.toNat with
  | 0 => .add
  | 1 => .nor
  | 2 => .lw
  | 3 => .sw
  | 4 => .beq
  | 5 => .jalr
  | 6 => .halt
  | _ => .noop

/-- The opcode of each operation, the other direction of the map of 30 R56. -/
def Opcode.bits : Opcode → BitVec 3
  | .add => 0
  | .nor => 1
  | .lw => 2
  | .sw => 3
  | .beq => 4
  | .jalr => 5
  | .halt => 6
  | .noop => 7

/-- `w[hi:lo]` of 00 R5, for a field of `n = hi - lo + 1` bits. -/
def bitField (w : Word) (lo n : Nat) : BitVec n := w.extractLsb' lo n

/-- `opcode = iw[24:22]` (30 R51, 90 C1). -/
def opcodeField (iw : Word) : BitVec 3 := bitField iw 22 3

/-- `regA = iw[21:19]` (30 R51). -/
def regAField (iw : Word) : RegNum := bitField iw 19 3

/-- `regB = iw[18:16]` (30 R51). -/
def regBField (iw : Word) : RegNum := bitField iw 16 3

/-- `destReg = iw[2:0]` (30 R51). -/
def destRegField (iw : Word) : RegNum := bitField iw 0 3

/-- `offsetField = iw[15:0]` (30 R51). -/
def offsetFieldOf (iw : Word) : OffsetField := bitField iw 0 16

/-- Decode: the opcode alone selects the instruction, the format the fields (30 R56, R58; 40 R92, R93). -/
def decode (iw : Word) : Instr :=
  match Opcode.ofBits (opcodeField iw) with
  | .add => .add (regAField iw) (regBField iw) (destRegField iw)
  | .nor => .nor (regAField iw) (regBField iw) (destRegField iw)
  | .lw => .lw (regAField iw) (regBField iw) (offsetFieldOf iw)
  | .sw => .sw (regAField iw) (regBField iw) (offsetFieldOf iw)
  | .beq => .beq (regAField iw) (regBField iw) (offsetFieldOf iw)
  | .jalr => .jalr (regAField iw) (regBField iw)
  | .halt => .halt
  | .noop => .noop

/-- The operation of an instruction. -/
def Instr.opcode : Instr → Opcode
  | .add _ _ _ => .add
  | .nor _ _ _ => .nor
  | .lw _ _ _ => .lw
  | .sw _ _ _ => .sw
  | .beq _ _ _ => .beq
  | .jalr _ _ => .jalr
  | .halt => .halt
  | .noop => .noop

/-- A field put at its place in the word: its low bit at bit `lo`, every other bit zero (30 R51, by shift and mask as
93 U10 asks). -/
def fieldAt (lo : Nat) {n : Nat} (f : BitVec n) : Word := f.setWidth 32 <<< lo

/-- The R-format: opcode 24:22, regA 21:19, regB 18:16, destReg 2:0, the rest zero (30 R52, R59). -/
def encodeR (op regA regB destReg : BitVec 3) : Word :=
  fieldAt 22 op ||| fieldAt 19 regA ||| fieldAt 16 regB ||| fieldAt 0 destReg

/-- The I-format: opcode 24:22, regA 21:19, regB 18:16, offsetField 15:0, the rest zero (30 R53, R59). -/
def encodeI (op regA regB : BitVec 3) (off : OffsetField) : Word :=
  fieldAt 22 op ||| fieldAt 19 regA ||| fieldAt 16 regB ||| fieldAt 0 off

/-- The J-format: opcode 24:22, regA 21:19, regB 18:16, the rest zero (30 R54, R59). -/
def encodeJ (op regA regB : BitVec 3) : Word := fieldAt 22 op ||| fieldAt 19 regA ||| fieldAt 16 regB

/-- The O-format: opcode 24:22, the rest zero (30 R55, R59). -/
def encodeO (op : BitVec 3) : Word := fieldAt 22 op

/-- The canonical word of an instruction: every bit the format does not name is zero (30 R59). -/
def encode : Instr → Word
  | .add a b d => encodeR Opcode.add.bits a b d
  | .nor a b d => encodeR Opcode.nor.bits a b d
  | .lw a b off => encodeI Opcode.lw.bits a b off
  | .sw a b off => encodeI Opcode.sw.bits a b off
  | .beq a b off => encodeI Opcode.beq.bits a b off
  | .jalr a b => encodeJ Opcode.jalr.bits a b
  | .halt => encodeO Opcode.halt.bits
  | .noop => encodeO Opcode.noop.bits

/-- The bits an instruction's format names, as a mask over the word (30 R58): the rest is ignored on decode. -/
def namedBits : Opcode → Word
  | .add => 0x01FF0007
  | .nor => 0x01FF0007
  | .lw => 0x01FFFFFF
  | .sw => 0x01FFFFFF
  | .beq => 0x01FFFFFF
  | .jalr => 0x01FF0000
  | .halt => 0x01C00000
  | .noop => 0x01C00000

/-- A word is canonical when every bit its format does not name is zero (30 R59). -/
def canonicalWord (w : Word) : Bool := w &&& namedBits (Opcode.ofBits (opcodeField w)) == w

/-- One row of spec/opcode_table.json: `match`, `mask` and the operation (30 R62). -/
structure OpcodeRow where
  opcode : Opcode
  matchWord : Word
  mask : Word
deriving DecidableEq, Repr

/-- The eight rows of spec/opcode_table.json, numbers as printed there (30 R62). -/
def opcodeTable : List OpcodeRow :=
  [ ⟨.add, 0x00000000, 0x01C00000⟩, ⟨.nor, 0x00400000, 0x01C00000⟩,
    ⟨.lw, 0x00800000, 0x01C00000⟩, ⟨.sw, 0x00C00000, 0x01C00000⟩,
    ⟨.beq, 0x01000000, 0x01C00000⟩, ⟨.jalr, 0x01400000, 0x01C00000⟩,
    ⟨.halt, 0x01800000, 0x01C00000⟩, ⟨.noop, 0x01C00000, 0x01C00000⟩ ]

/-- The test a decoder written from the table applies for a row: `iw AND mask == match` (30 R62). -/
def OpcodeRow.takes (r : OpcodeRow) (iw : Word) : Bool := iw &&& r.mask == r.matchWord

/-- The word of `nbits` bits that the number `w` writes, bits above `nbits` zero (one cell holds one instruction, 30 R50). -/
def tableWord (nbits w : Nat) : Word := BitVec.ofNat 32 (w % 2 ^ nbits)

/-- What the decoder reads from an instruction whose bits are `w`, numbered as spec/opcode_table.json numbers them.
It never refuses (30 R60). -/
def decodeTableWord (nbits w : Nat) : Option Instr := some (decode (tableWord nbits w))

end Sys2Proof
end

