-- ==== Sys2Proof/Config.lean ====
section
/-! DEFINITION. The parameters of 00 R4: what an implementation fixes. The model has no free value. -/

namespace Sys2Proof

/-- The upper bound of 00 R4 on `MEMWORDS`, the spec's own (D2): it keeps the wrapped effective address equal to the
exact signed sum (42 R120) and `pc + 1` from wrapping (10 R15). -/
def Config.memWordsMax : Nat := 2 ^ 31 - 2 ^ 15

/-- `MEMWORDS` of `State.reset`: 00 R4 leaves the parameter open and suggests 65536.
DESIGN CHOICE (log 1), unsafe if a statement rests on the number: statements range over every capacity instead. -/
def Config.memWordsDefault : Nat := 65536

/-- The two open parameters of the assembler (00 R4 MAXLINE and MAXLABELS, D23). They are arguments, never chosen. -/
structure AsmParams where
  /-- `MAXLINE`: the longest source line accepted, its newline not counted (30 R65). -/
  maxLine : Nat
  /-- `MAXLABELS`: the capacity of the label table (30 R70). -/
  maxLabels : Nat
deriving DecidableEq, Repr

end Sys2Proof
end

