-- ==== Sys2Proof/WellFormed.lean ====
section
/-! DEFINITION. The checks on raw numbers, before they become typed data: every `Instr` is well formed by its type
(10 R12, 30 R60), so what can be ill formed is a number a person or the host gives. -/

namespace Sys2Proof

/-- A number that names a register: `0 .. 7` (30 R73). -/
def regNumOk (v : Int) : Bool := decide (0 ≤ v) && decide (v ≤ 7)

/-- A number that fits the signed 16-bit offset field: `-32768 .. 32767` (30 R57, R74). -/
def offsetOk (v : Int) : Bool := decide (-32768 ≤ v) && decide (v ≤ 32767)

/-- A number that fits a cell as a signed number: `-2^31 .. 2^31 - 1` (30 R76, 70 R174). -/
def cellValueOk (v : Int) : Bool := decide (-(2 ^ 31) ≤ v) && decide (v ≤ 2 ^ 31 - 1)

/-- A capacity the parameter `MEMWORDS` admits: `1 .. 2^31 - 2^15` (00 R4). -/
def memWordsOk (n : Nat) : Bool := decide (1 ≤ n) && decide (n ≤ Config.memWordsMax)

/-- An image that fits the memory (70 R172, R173). -/
def imageOk (memWords : Nat) (image : List Word) : Bool := decide (image.length ≤ memWords)

end Sys2Proof
end

