-- ==== Sys2Proof/Machine/State.lean ====
section
/-! DEFINITION. The whole state of the machine (10 R10), as plain data, and its reset value (10 R27). -/

namespace Sys2Proof.Machine

/-- The run state (10 R17). -/
inductive RunState where
  /-- The core takes steps. -/
  | running
  /-- A HALT has executed: the only normal end (44 R140, R143). -/
  | halted
  /-- A step raised an address fault (60 R156): never the end of a correct run. -/
  | faulted
deriving DecidableEq, Repr

/-- The kind in the fault record (60 R151). -/
inductive FaultKind where
  /-- No fault recorded: the reset value. -/
  | none
  /-- The fetch of a step (60 R152). -/
  | fetch
  /-- The data read of LW (60 R153). -/
  | load
  /-- The data write of SW (60 R154). -/
  | store
deriving DecidableEq, Repr

/-- The fault record `(kind, fpc, faddr)` (10 R18, 60 R151). -/
structure FaultRecord where
  /-- The kind of the fault, or `none`. -/
  kind : FaultKind
  /-- The `pc` of the step that faulted. -/
  fpc : Word
  /-- The offending address. -/
  faddr : Word
deriving DecidableEq, Repr

/-- The record as reset leaves it: `(0, 0, 0)` (10 R27). -/
def FaultRecord.empty : FaultRecord := ⟨.none, 0, 0⟩

/-- The array `Mem` of 10 R16: its length and its cells that are not 0. A cell is one 32-bit value and never four bytes
(20 R32; NOTES.md, Reading notes). Addresses rise strictly, no listed cell is 0 and every address is below `words`: `Memory.wf`. -/
structure Memory where
  /-- The number of cells, `MEMWORDS` (00 R4). No instruction changes it. -/
  words : Nat
  /-- The cells that do not hold 0, by address. A cell not listed holds 0, its reset value (10 R27). -/
  cells : List (Nat × Word)
deriving DecidableEq, Repr

/-- The state of the machine: exactly what 10 R10 lists. -/
structure State where
  /-- The program counter: the address of the instruction being executed (10 R14). -/
  pc : Word
  /-- The general registers `x[0]` to `x[7]`; none is hardwired (10 R11). -/
  regs : Vector Word 8
  /-- Memory, instructions and data together (10 R16). -/
  mem : Memory
  /-- The run state (10 R17). -/
  run : RunState
  /-- The fault record (10 R18). -/
  fault : FaultRecord
deriving DecidableEq, Repr

/-- The reasons the machine could stop with a host-level fault: none. The only abnormal outcome of spec/, the address
fault, is a state the machine enters (`run = Faulted`, 60 R156), so it is a next state (NOTES.md, Reading notes; safe). -/
inductive Fault
deriving DecidableEq, Repr

/-- The reasons for a refusal. No step and no meaning raises one (30 R60); the host's boundary raises all but the first. -/
inductive Refusal where
  /-- Raised by an arm of `exec` without a meaning. No arm has one; safe. -/
  | notModelled (mnemonic : String)
  /-- Raised by `loadImage` on a capacity outside `1 .. 2^31 - 2^15` (00 R4). The machine does not start; safe. -/
  | capacityOutOfRange
  /-- Raised by `loadImage` on an image longer than memory (70 R173). The machine does not start; safe. -/
  | imageTooLong
  /-- Raised by `loadFile`: the line with this number is no decimal integer or does not fit a cell (70 R174); safe. -/
  | malformedMachineWord (line : Nat)
  /-- Raised by `loadFile` when there is no file (70 R174, 30 R81); safe. -/
  | fileNotFound
deriving DecidableEq, Repr

/-- The machine right after reset, with no image (10 R27, 70 R170). The length of memory is a parameter the spec leaves
open: DESIGN CHOICE 65536 (log 1). With an image and any length: `resetWith` of Machine/Reset.lean. -/
def State.reset : State where
  pc := 0
  regs := Vector.replicate 8 0
  mem := ⟨Config.memWordsDefault, []⟩
  run := .running
  fault := FaultRecord.empty

end Sys2Proof.Machine
end

