-- ==== Sys2Proof/Machine/Ops.lean ====
section
/-! DEFINITION. The named operations over registers, memory, `pc` and the fault record. Every read and write goes
through them. -/

namespace Sys2Proof.Machine

/-! ### Registers (10 R11, R13) -/

/-- `x[r]`: a read of a general register. -/
def State.x (s : State) (r : RegNum) : Word := s.regs[r.toNat]'r.isLt

/-- `x[r] <- v`: a write of a general register. Register 0 is like every other (10 R11). -/
def State.setX (s : State) (r : RegNum) (v : Word) : State := { s with regs := s.regs.set r.toNat v r.isLt }

/-! ### The program counter (10 R14) -/

/-- `pc <- t`. -/
def State.setPc (s : State) (t : Word) : State := { s with pc := t }

/-- `pc1 = (pc + 1) mod 2^32` (10 R25). -/
def State.pc1 (s : State) : Word := s.pc + 1

/-- The generic increment: `pc <- (pc + 1) mod 2^32` (40 R95). -/
def State.advance (s : State) : State := s.setPc s.pc1

/-! ### Memory (20) -/

/-- What a list of cells holds at an address; an address not listed holds 0 (10 R27). -/
def cellsAt : List (Nat × Word) → Nat → Word
  | [], _ => 0
  | (k, v) :: rest, a => if k = a then v else cellsAt rest a

/-- A cell put into a list of cells in the order of addresses. -/
def cellsInsert (a : Nat) (v : Word) : List (Nat × Word) → List (Nat × Word)
  | [] => [(a, v)]
  | (k, w) :: rest => if a < k then (a, v) :: (k, w) :: rest else (k, w) :: cellsInsert a v rest

/-- A list of cells without the one at an address. -/
def cellsErase (a : Nat) (cells : List (Nat × Word)) : List (Nat × Word) := cells.filter (fun c => c.1 ≠ a)

/-- `Mem[a]` as a number's cell, whatever the array's length: 0 where nothing is listed. -/
def Memory.cell (m : Memory) (a : Nat) : Word := cellsAt m.cells a

/-- `Mem[a] <- v`, keeping the canonical form: a cell that becomes 0 is not listed. -/
def Memory.setCell (m : Memory) (a : Nat) (v : Word) : Memory :=
  { m with cells := if v = 0 then cellsErase a m.cells else cellsInsert a v (cellsErase a m.cells) }

/-- The canonical form: addresses strictly rising, no listed cell 0, every address inside the array. -/
abbrev Memory.wf (m : Memory) : Prop :=
  m.cells.Pairwise (fun c d => c.1 < d.1) ∧ ∀ c ∈ m.cells, c.2 ≠ 0 ∧ c.1 < m.words

/-- An address is valid iff `u(a) < MEMWORDS` (20 R37). -/
def Memory.valid (m : Memory) (a : Word) : Bool := decide (a.toNat < m.words)

/-- `MemRead(a, 1)`: the whole cell, or nothing when the address is not valid and the caller raises its fault (20 R38). -/
def State.memRead (s : State) (a : Word) : Option Word :=
  if s.mem.valid a then some (s.mem.cell a.toNat) else none

/-- `MemWrite(a, 1, v)`: the state with that one cell replaced, or nothing when the address is not valid, no cell is
changed and the caller raises its fault (20 R39). -/
def State.memWrite (s : State) (a v : Word) : Option State :=
  if s.mem.valid a then some { s with mem := s.mem.setCell a.toNat v } else none

/-! ### The run state and the fault -/

/-- `run <- r` (10 R17). -/
def State.setRun (s : State) (r : RunState) : State := { s with run := r }

/-- `raise AddressFault(kind, a)`: `run <- Faulted`, `fault <- (kind, pc, a)`, nothing else (60 R156). `s` is the state
at the start of the step. This is the machine's one exception entry; there is no return from it (60 R157). -/
def raiseAddressFault (kind : FaultKind) (a : Word) (s : State) : State :=
  { s with run := .faulted, fault := ⟨kind, s.pc, a⟩ }

/-! ### The status port (10 R26) -/

/-- The code of `run` on the status port: 0 Running, 1 Halted, 2 Faulted (10 R17). -/
def RunState.code : RunState → BitVec 2
  | .running => 0
  | .halted => 1
  | .faulted => 2

/-- The kind code of the fault record: 0 none, 1 Fetch, 2 Load, 3 Store (60 R151). -/
def FaultKind.code : FaultKind → BitVec 2
  | .none => 0
  | .fetch => 1
  | .load => 2
  | .store => 3

/-- The `run` port: 2 bits (10 R26). -/
def State.runPort (s : State) : BitVec 2 := s.run.code

/-- The `fault` port: 2 + 32 + 32 bits (10 R26). -/
def State.faultPort (s : State) : BitVec 2 × Word × Word := (s.fault.kind.code, s.fault.fpc, s.fault.faddr)

end Sys2Proof.Machine
end

