-- ==== Sys2Proof/Machine/Arithmetic.lean ====
section
/-! DEFINITION. ADD and NOR (41). -/

namespace Sys2Proof.Machine

/-- `alu_add = (ra + rb) mod 2^32` (10 R25, 41 R112). -/
def aluAdd (ra rb : Word) : Word := ra + rb

/-- `alu_nor = ~(ra | rb)` (10 R25). -/
def aluNor (ra rb : Word) : Word := ~~~(ra ||| rb)

/-- ADD (41 R110). -/
def execAdd (regA regB destReg : RegNum) (s : State) : Host.Outcome State Fault Refusal :=
  .next (s.setX destReg (aluAdd (s.x regA) (s.x regB))).advance

/-- NOR (41 R111). -/
def execNor (regA regB destReg : RegNum) (s : State) : Host.Outcome State Fault Refusal :=
  .next (s.setX destReg (aluNor (s.x regA) (s.x regB))).advance

end Sys2Proof.Machine
end

