-- ==== Sys2Proof/Machine/Flags.lean ====
section
/-! DEFINITION. The machine has no flags and no condition codes (10 R19): no instruction computes one. The one
condition an instruction tests is the equality comparator's output, which leaves no trace (41 R113). -/

namespace Sys2Proof.Machine

/-- `eq = (ra == rb)`: true iff all 32 bits agree (10 R25, 41 R113). -/
def equalWords (ra rb : Word) : Bool := ra == rb

end Sys2Proof.Machine
end

