-- ==== Sys2Proof/Machine/Operands.lean ====
section
/-! DEFINITION. The operand forms: a register number as decoded, and the sign-extended offset with the two addresses
formed from it (30 R57). There is no other operand form. -/

namespace Sys2Proof.Machine

/-- `sext_32(f)` of 00 R6, for the 16-bit offset field (30 R57). -/
def sext32 (f : OffsetField) : Word := f.signExtend 32

/-- `ea = (x[regA] + sext_32(offsetField)) mod 2^32` (42 R120). -/
def effectiveAddress (base : Word) (off : OffsetField) : Word := base + sext32 off

/-- `pcb = (pc + 1 + sext_32(offsetField)) mod 2^32` (10 R25, 43 R130). -/
def branchTarget (pc : Word) (off : OffsetField) : Word := pc + 1 + sext32 off

end Sys2Proof.Machine
end

