-- ==== Sys2Proof/Machine/ControlTransfer.lean ====
section
/-! DEFINITION. BEQ and JALR (43), the two instructions whose handlers own the update of `pc` (40 R95). -/

namespace Sys2Proof.Machine

/-- BEQ (43 R130); not taken it goes to `pc + 1` (D8, 90 C2). -/
def execBeq (regA regB : RegNum) (off : OffsetField) (s : State) : Host.Outcome State Fault Refusal :=
  .next (s.setPc (if equalWords (s.x regA) (s.x regB) then branchTarget s.pc off else s.pc1))

/-- JALR (43 R131): the link is written first and the jump reads `x[regA]` after it, so `jalr r r` goes to `pc + 1`
(10 R13, D7). -/
def execJalr (regA regB : RegNum) (s : State) : Host.Outcome State Fault Refusal :=
  let linked := s.setX regB s.pc1
  .next (linked.setPc (linked.x regA))

end Sys2Proof.Machine
end

