-- ==== Sys2Proof/Machine/HaltNoop.lean ====
section
/-! DEFINITION. HALT and NOOP (44). -/

namespace Sys2Proof.Machine

/-- HALT (44 R140): the generic increment once (90 C3), then `run <- Halted`. -/
def execHalt (s : State) : Host.Outcome State Fault Refusal := .next (s.advance.setRun .halted)

/-- NOOP (44 R141): no effect beyond the generic increment. -/
def execNoop (s : State) : Host.Outcome State Fault Refusal := .next s.advance

end Sys2Proof.Machine
end

