-- ==== Sys2Proof/Machine/LoadStore.lean ====
section
/-! DEFINITION. LW and SW (42). -/

namespace Sys2Proof.Machine

/-- LW (42 R121), its fault 60 R153. -/
def execLw (regA regB : RegNum) (off : OffsetField) (s : State) : Host.Outcome State Fault Refusal :=
  let ea := effectiveAddress (s.x regA) off
  match s.memRead ea with
  | some v => .next (s.setX regB v).advance
  | none => .next (raiseAddressFault .load ea s)

/-- SW (42 R122), its fault 60 R154. -/
def execSw (regA regB : RegNum) (off : OffsetField) (s : State) : Host.Outcome State Fault Refusal :=
  let ea := effectiveAddress (s.x regA) off
  match s.memWrite ea (s.x regB) with
  | some t => .next t.advance
  | none => .next (raiseAddressFault .store ea s)

end Sys2Proof.Machine
end

