-- ==== Sys2Proof/Machine/Dispatch.lean ====
section
/-! DEFINITION. The dispatch multiplexer (unit DISP of 10 R24): the instruction selects its handler (40 R93). -/

namespace Sys2Proof.Machine

/-- The effect of one instruction on a running core, its update of `pc` included (40 R93, R95, R101). -/
def exec (i : Instr) (s : State) : Host.Outcome State Fault Refusal :=
  match i with
  | .add regA regB destReg => Sys2Proof.Machine.execAdd regA regB destReg s
  | .nor regA regB destReg => Sys2Proof.Machine.execNor regA regB destReg s
  | .lw regA regB off => Sys2Proof.Machine.execLw regA regB off s
  | .sw regA regB off => Sys2Proof.Machine.execSw regA regB off s
  | .beq regA regB off => Sys2Proof.Machine.execBeq regA regB off s
  | .jalr regA regB => Sys2Proof.Machine.execJalr regA regB s
  | .halt => Sys2Proof.Machine.execHalt s
  | .noop => Sys2Proof.Machine.execNoop s

end Sys2Proof.Machine
end

