-- ==== Sys2Proof/Machine/Fetch.lean ====
section
/-! DEFINITION. What a step does around the instruction: whether it is taken, the fetch, its fault, and the placing of
a word where the next fetch reads. -/

namespace Sys2Proof.Machine

/-- A step is taken only when `run = Running` (40 R90, 10 R17). -/
def State.takesStep (s : State) : Bool := s.run == .running

/-- The fetch `iw <- MemRead(pc, 1)` (40 R91): the current content of memory, so a store is seen at once (20 R44). -/
def fetch (s : State) : Option Word := s.memRead s.pc

/-- The fetch fault `AddressFault(Fetch, pc)` (60 R152). -/
def fetchFault (s : State) : State := raiseAddressFault .fetch s.pc s

/-- A step of a core that is Halted or Faulted: none is taken and nothing changes (10 R17, 40 R90; log 2). -/
def noStep (s : State) : State := s

/-- The state with a word in the cell the next step fetches; unchanged when `pc` is not a valid address. -/
def placeAtPc (s : State) (w : Word) : State := (s.memWrite s.pc w).getD s

end Sys2Proof.Machine
end

