-- ==== Sys2Proof/Machine/Step.lean ====
section
/-! DEFINITION. One step of the core: fetch, decode, dispatch (40 R101). -/

namespace Sys2Proof.Machine

/-- The step function of 40 R101. The three outcomes of 00 R7 are told apart by `run` before and after the step:
`stepOutcome` of Safety.lean. -/
def step (s : State) : Host.Outcome State Fault Refusal :=
  if s.takesStep then
    match fetch s with
    | some iw => exec (decode iw) s
    | none => .next (fetchFault s)
  else
    .next (noStep s)

/-- `s` with the instruction whose bits are `w` in the cell at `pc`, where `step` fetches (log 3). -/
def State.withFetchWord (s : State) (nbits w : Nat) : State := placeAtPc s (tableWord nbits w)

end Sys2Proof.Machine
end

