-- ==== Sys2Proof/Machine/Text.lean ====
section
/-! DEFINITION. Text as lists of characters: lines, blank-separated fields, and decimal integers. The assembler and the
image loader are built on it (30 part B, 70 R174). -/

namespace Sys2Proof.Machine

/-- Whitespace inside a line is space and tab (30 R65). -/
def isBlank (c : Char) : Bool := c == ' ' || c == '\t'

/-- A text cut at its newlines: the lines a newline ends, and what is left after the last newline.
`cur` is the current line so far, last character first. -/
def splitLines (cur : List Char) : List Char → List (List Char) × List Char
  | [] => ([], cur.reverse)
  | c :: rest =>
    if c = '\n' then
      let r := splitLines [] rest
      (cur.reverse :: r.1, r.2)
    else splitLines (c :: cur) rest

/-- The maximal runs of characters that are not blank (30 R65). `cur` is the current run, last character first. -/
def fieldsFrom (cur : List Char) : List Char → List (List Char)
  | [] => if cur = [] then [] else [cur.reverse]
  | c :: rest =>
    if isBlank c then
      if cur = [] then fieldsFrom [] rest else cur.reverse :: fieldsFrom [] rest
    else fieldsFrom (c :: cur) rest

/-- The whitespace-delimited fields of a piece of a line (30 R65). -/
def fields (text : List Char) : List (List Char) := fieldsFrom [] text

/-- The value of a decimal digit. -/
def digitValue (c : Char) : Option Nat :=
  if 48 ≤ c.toNat ∧ c.toNat ≤ 57 then some (c.toNat - 48) else none

/-- The number that decimal digits write after the digits already read as `acc`; nothing if one is no digit. -/
def digitsValue (acc : Nat) : List Char → Option Nat
  | [] => some acc
  | c :: rest =>
    match digitValue c with
    | some d => digitsValue (acc * 10 + d) rest
    | none => none

/-- One or more decimal digits and nothing else (30 R71). -/
def parseNat (text : List Char) : Option Nat := if text = [] then none else digitsValue 0 text

/-- A base-10 signed integer: an optional `-` or `+`, then one or more digits and nothing else (30 R71, D20). -/
def parseInt : List Char → Option Int
  | [] => none
  | c :: rest =>
    if c = '-' then (parseNat rest).map (fun n => -(n : Int))
    else if c = '+' then (parseNat rest).map (fun n => (n : Int))
    else (parseNat (c :: rest)).map (fun n => (n : Int))

/-- The character of a decimal digit. -/
def digitChar (d : Nat) : Char := Char.ofNat (48 + d)

/-- The decimal digits of a number, by fuel; `natText` gives enough. -/
def natTextFuel : Nat → Nat → List Char
  | 0, _ => []
  | fuel + 1, n => if n < 10 then [digitChar n] else natTextFuel fuel (n / 10) ++ [digitChar (n % 10)]

/-- A natural number in decimal. -/
def natText (n : Nat) : List Char := natTextFuel (n + 1) n

/-- An integer in decimal, signed (30 R80). -/
def intText : Int → List Char
  | .ofNat n => natText n
  | .negSucc n => '-' :: natText (n + 1)

/-- Lines joined by newlines, with none after the last (30 R80). -/
def joinLines (lines : List (List Char)) : List Char := ['\n'].intercalate lines

end Sys2Proof.Machine
end

