-- ==== Sys2Proof/Machine/Assembler.lean ====
section
/-! DEFINITION. The two-pass assembler of 30 part B (R65 to R81), and the disassembly of R82. -/

namespace Sys2Proof.Machine

/-- The assembler's errors (30 R79), and two for what the taxonomy does not name (log 4). Positions count from 0. -/
inductive AsmError where
  /-- An unknown or empty mnemonic (30 R77 (0)). -/
  | unrecognizedOpcode
  /-- A symbolic operand not in the label table (30 R71). -/
  | undefinedLabel (position : Nat)
  /-- A missing required operand (30 R77 (1)). -/
  | notEnoughArguments
  /-- A register operand that is not numeric or not in `0 .. 7` (30 R73). -/
  | invalidArgument (position : Nat)
  /-- An offset or a `.fill` value out of range (30 R74, R76). -/
  | argOverflow
  /-- A label defined twice (30 R70). -/
  | duplicateLabel (label : List Char)
  /-- A line longer than `MAXLINE` (30 R65). -/
  | lineTooLong
  /-- More than `MAXLABELS` labels: the resource-exhaustion error 30 R70 leaves unnamed (log 4). -/
  | tooManyLabels
  /-- A last line that no newline ends: "lines must end in a newline" (30 R65; log 4). -/
  | unterminatedLine
deriving DecidableEq, Repr

/-- The fields of a source line: an optional label, a mnemonic (empty when there is none) and up to three arguments
(30 R65). -/
structure SourceLine where
  label : Option (List Char)
  mnemonic : List Char
  args : List (List Char)
deriving DecidableEq, Repr

/-- A line's fields. A label starts in column 0 and is the run of characters up to the first blank (30 R66, 90 C6);
text past the fifth field is ignored (30 R67). -/
def parseLine (line : List Char) : SourceLine :=
  let first := line.takeWhile (fun c => !isBlank c)
  let rest := fields (line.dropWhile (fun c => !isBlank c))
  { label := if first = [] then none else some first
    mnemonic := rest.headD []
    args := (rest.drop 1).take 3 }

/-- What a mnemonic names: an instruction or the directive (30 R68). -/
inductive Mnemonic where
  | op (o : Opcode)
  | fill
deriving DecidableEq, Repr

/-- The mnemonic of each operation, in lower case (30 R68). -/
def mnemonicText : Opcode → List Char
  | .add => ['a', 'd', 'd']
  | .nor => ['n', 'o', 'r']
  | .lw => ['l', 'w']
  | .sw => ['s', 'w']
  | .beq => ['b', 'e', 'q']
  | .jalr => ['j', 'a', 'l', 'r']
  | .halt => ['h', 'a', 'l', 't']
  | .noop => ['n', 'o', 'o', 'p']

/-- The directive's name (30 R68). -/
def fillText : List Char := ['.', 'f', 'i', 'l', 'l']

/-- The mnemonics, exact and case-sensitive (30 R68, D22). -/
def mnemonicOf (m : List Char) : Option Mnemonic :=
  if m = fillText then some .fill
  else if m = mnemonicText .add then some (.op .add)
  else if m = mnemonicText .nor then some (.op .nor)
  else if m = mnemonicText .lw then some (.op .lw)
  else if m = mnemonicText .sw then some (.op .sw)
  else if m = mnemonicText .beq then some (.op .beq)
  else if m = mnemonicText .jalr then some (.op .jalr)
  else if m = mnemonicText .halt then some (.op .halt)
  else if m = mnemonicText .noop then some (.op .noop)
  else none

/-- How many operands a mnemonic requires (30 R77 (1)). -/
def Mnemonic.arity : Mnemonic → Nat
  | .op .add => 3
  | .op .nor => 3
  | .op .lw => 3
  | .op .sw => 3
  | .op .beq => 3
  | .op .jalr => 2
  | .op .halt => 0
  | .op .noop => 0
  | .fill => 1

/-- One word of output: an instruction word, printed unsigned, or a `.fill` value, printed signed (30 R80). -/
inductive MachineWord where
  | instr (w : Word)
  | fill (v : Int)
deriving DecidableEq, Repr

/-- The number printed for an output word (30 R80). -/
def MachineWord.value : MachineWord → Int
  | .instr w => w.toNat
  | .fill v => v

/-- The cell an output word becomes (30 R76, 70 R174). -/
def MachineWord.cell : MachineWord → Word
  | .instr w => w
  | .fill v => BitVec.ofInt 32 v

/-- The label table: each label with the address of its line (30 R70). -/
abbrev LabelTable := List (List Char × Nat)

/-- A label's address. -/
def lookupLabel : LabelTable → List Char → Option Nat
  | [], _ => none
  | (l, a) :: rest, label => if l = label then some a else lookupLabel rest label

/-- Pass 1, the symbol table builder: one address a line, from `addr` (30 R69, R70, R79). DESIGN CHOICE (log 4): the
spec names no pass for `LineTooLong`; it is found here, before every pass-2 error and before the line's own label. -/
def buildTable (p : AsmParams) : Nat → LabelTable → List (List Char) → Except AsmError LabelTable
  | _, table, [] => .ok table
  | addr, table, line :: rest =>
    if p.maxLine < line.length then .error .lineTooLong
    else
      match (parseLine line).label with
      | none => buildTable p (addr + 1) table rest
      | some l =>
        if (lookupLabel table l).isSome then .error (.duplicateLabel l)
        else if p.maxLabels ≤ table.length then .error .tooManyLabels
        else buildTable p (addr + 1) (table ++ [(l, addr)]) rest

/-- A register operand: a bare number in `0 .. 7` (30 R73, D17). -/
def registerOperand (args : List (List Char)) (position : Nat) : Except AsmError RegNum :=
  match parseInt (args.getD position []) with
  | some v => if regNumOk v then .ok (BitVec.ofInt 3 v) else .error (.invalidArgument position)
  | none => .error (.invalidArgument position)

/-- A value operand: a number used verbatim, or a label, whose address `ofLabel` turns into the value; out of range is
`ArgOverflow` for both (30 R71, R74, R76, R77 (3) and (4); D18). -/
def valueOperand (table : LabelTable) (ofLabel : Nat → Int) (inRange : Int → Bool) (args : List (List Char))
    (position : Nat) : Except AsmError Int :=
  let token := args.getD position []
  match parseInt token with
  | some v => if inRange v then .ok v else .error .argOverflow
  | none =>
    match lookupLabel table token with
    | none => .error (.undefinedLabel position)
    | some a => if inRange (ofLabel a) then .ok (ofLabel a) else .error .argOverflow

/-- The offset a `beq` at `addr` has for a label at `a`: `labelAddress - (currentAddress + 1)` (30 R71, R75). -/
def branchOffset (addr a : Nat) : Int := (a : Int) - ((addr : Int) + 1)

/-- The operands of an R-format statement (30 R72). -/
def statementR (args : List (List Char)) (mk : RegNum → RegNum → RegNum → Instr) : Except AsmError MachineWord := do
  let a ← registerOperand args 0
  let b ← registerOperand args 1
  let d ← registerOperand args 2
  return .instr (encode (mk a b d))

/-- The operands of an I-format statement: both registers before the offset (30 R72, R77). -/
def statementI (table : LabelTable) (ofLabel : Nat → Int) (args : List (List Char))
    (mk : RegNum → RegNum → OffsetField → Instr) : Except AsmError MachineWord := do
  let a ← registerOperand args 0
  let b ← registerOperand args 1
  let off ← valueOperand table ofLabel offsetOk args 2
  return .instr (encode (mk a b (BitVec.ofInt 16 off)))

/-- The operands of a J-format statement (30 R72). -/
def statementJ (args : List (List Char)) (mk : RegNum → RegNum → Instr) : Except AsmError MachineWord := do
  let a ← registerOperand args 0
  let b ← registerOperand args 1
  return .instr (encode (mk a b))

/-- The statement forms of 30 R72, for a mnemonic with enough arguments. -/
def statement (table : LabelTable) (addr : Nat) (args : List (List Char)) : Mnemonic → Except AsmError MachineWord
  | .op .add => statementR args .add
  | .op .nor => statementR args .nor
  | .op .lw => statementI table (fun a => (a : Int)) args .lw
  | .op .sw => statementI table (fun a => (a : Int)) args .sw
  | .op .beq => statementI table (branchOffset addr) args .beq
  | .op .jalr => statementJ args .jalr
  | .op .halt => .ok (.instr (encode .halt))
  | .op .noop => .ok (.instr (encode .noop))
  | .fill => (valueOperand table (fun a => (a : Int)) cellValueOk args 0).map .fill

/-- One line of pass 2, at its address, in the validation order of 30 R77. -/
def assembleLine (table : LabelTable) (addr : Nat) (line : List Char) : Except AsmError MachineWord :=
  let sl := parseLine line
  match mnemonicOf sl.mnemonic with
  | none => .error .unrecognizedOpcode
  | some m => if sl.args.length < m.arity then .error .notEnoughArguments else statement table addr sl.args m

/-- Pass 2, line by line, with the table frozen (30 R79). -/
def emit (table : LabelTable) : Nat → List (List Char) → Except AsmError (List MachineWord)
  | _, [] => .ok []
  | addr, line :: rest =>
    match assembleLine table addr line with
    | .error e => .error e
    | .ok w =>
      match emit table (addr + 1) rest with
      | .error e => .error e
      | .ok ws => .ok (w :: ws)

/-- What is left after the last newline must be empty (30 R65). DESIGN CHOICE (log 4): the error's name. -/
def lastLineError (p : AsmParams) (left : List Char) : Option AsmError :=
  if left = [] then none
  else if p.maxLine < left.length then some .lineTooLong
  else some .unterminatedLine

/-- The assembler: pass 1 over the whole source, then pass 2 (30 R79). DESIGN CHOICE (log 4): what is left after the
last newline is looked at between the passes. -/
def assemble (p : AsmParams) (source : List Char) : Except AsmError (List MachineWord) :=
  let r := splitLines [] source
  match buildTable p 0 [] r.1 with
  | .error e => .error e
  | .ok table =>
    match lastLineError p r.2 with
    | some e => .error e
    | none => emit table 0 r.1

/-- The machine-code file: one decimal number a line, no newline after the last (30 R80). -/
def machineCodeText (ws : List MachineWord) : List Char := joinLines (ws.map (fun w => intText w.value))

/-- The assembler's exit code: 0 on success, 1 on any error (30 R81). -/
def assemblerExitCode : Except AsmError (List MachineWord) → Nat
  | .ok _ => 0
  | .error _ => 1

/-- The statement of an instruction with numeric operands, in a line without a label (30 R72, R82). -/
def instrText (i : Instr) : List Char :=
  let reg (r : RegNum) : List Char := ' ' :: natText r.toNat
  let operands : List Char :=
    match i with
    | .add a b d => reg a ++ reg b ++ reg d
    | .nor a b d => reg a ++ reg b ++ reg d
    | .lw a b off => reg a ++ reg b ++ ' ' :: intText off.toInt
    | .sw a b off => reg a ++ reg b ++ ' ' :: intText off.toInt
    | .beq a b off => reg a ++ reg b ++ ' ' :: intText off.toInt
    | .jalr a b => reg a ++ reg b
    | .halt => []
    | .noop => []
  ' ' :: mnemonicText i.opcode ++ operands

/-- The line an output word disassembles to: an instruction's statement, or `.fill` of a data word (30 R82). -/
def disassembleLine : MachineWord → List Char
  | .instr w => instrText (decode w)
  | .fill v => ' ' :: fillText ++ ' ' :: intText v

/-- The source of an output, each line ended by a newline (30 R82). -/
def disassemble (ws : List MachineWord) : List Char := (ws.map (fun w => disassembleLine w ++ ['\n'])).flatten

end Sys2Proof.Machine
end

