-- ==== Sys2Proof/Machine/Datapath.lean ====
section
/-! DEFINITION. The core as hardware: the units' signals (10 R24, R25), the control-signal table (40 R94), the step
they make, and the memory port (10 R26, 20 R34). It is a second description of `step`, told to agree with it by an
obligation. -/

namespace Sys2Proof.Machine

/-- The internal signals of a step, all combinational (10 R25). -/
structure Signals where
  iw : Word
  opcode : BitVec 3
  regA : RegNum
  regB : RegNum
  destReg : RegNum
  offsetField : OffsetField
  offset : Word
  /-- `sel[k] = (opcode == k)`. -/
  sel : BitVec 8
  ra : Word
  rb : Word
  aluAdd : Word
  aluNor : Word
  eq : Bool
  ea : Word
  eaOk : Bool
  pc1 : Word
  pcb : Word
  /-- `sel[4] or sel[5]`: the handler sets `pc`. -/
  ownsPc : Bool
deriving DecidableEq, Repr

/-- The dispatch's one-hot select (40 R93). -/
def selectOf (opcode : BitVec 3) : BitVec 8 := 1#8 <<< opcode.toNat

/-- The signals as functions of the pre-step state and the fetched word (10 R25). -/
def signals (s : State) (iw : Word) : Signals :=
  let opcode := opcodeField iw
  let ra := s.x (regAField iw)
  let rb := s.x (regBField iw)
  let off := offsetFieldOf iw
  let sel := selectOf opcode
  let ea := effectiveAddress ra off
  { iw := iw, opcode := opcode, regA := regAField iw, regB := regBField iw, destReg := destRegField iw,
    offsetField := off, offset := sext32 off, sel := sel, ra := ra, rb := rb,
    aluAdd := aluAdd ra rb, aluNor := aluNor ra rb, eq := equalWords ra rb,
    ea := ea, eaOk := s.mem.valid ea, pc1 := s.pc1, pcb := branchTarget s.pc off,
    ownsPc := sel.getLsbD 4 || sel.getLsbD 5 }

/-- Which field gives the register written: `rf_waddr` (40 R94). -/
inductive RegTarget where
  | destReg | regB | none
deriving DecidableEq, Repr

/-- The value written to the register file: `rf_wdata` (40 R94). -/
inductive RegData where
  | aluAdd | aluNor | memData | pc1 | none
deriving DecidableEq, Repr

/-- The value loaded into `pc`: `pc_src` (40 R94). -/
inductive PcSource where
  | pc1 | pcb | ra
deriving DecidableEq, Repr

/-- One row of the control-signal table (40 R94). -/
structure Control where
  rfWe : Bool
  rfWaddr : RegTarget
  rfWdata : RegData
  memRd : Bool
  memWr : Bool
  pcSrc : PcSource
  ownsPc : Bool
  halt : Bool
deriving DecidableEq, Repr

/-- The exemption table of the update of `pc`: whether the handler sets it (40 R95). -/
def ownsPc : Opcode → Bool
  | .add => false
  | .nor => false
  | .lw => false
  | .sw => false
  | .beq => true
  | .jalr => true
  | .halt => false
  | .noop => false

/-- The control-signal table, one row per opcode (40 R94). -/
def controlRow (g : Signals) : Control :=
  match Opcode.ofBits g.opcode with
  | .add => ⟨true, .destReg, .aluAdd, false, false, .pc1, false, false⟩
  | .nor => ⟨true, .destReg, .aluNor, false, false, .pc1, false, false⟩
  | .lw => ⟨g.eaOk, .regB, .memData, true, false, .pc1, false, false⟩
  | .sw => ⟨false, .none, .none, false, g.eaOk, .pc1, false, false⟩
  | .beq => ⟨false, .none, .none, false, false, if g.eq then .pcb else .pc1, true, false⟩
  | .jalr => ⟨true, .regB, .pc1, false, false, if g.regA == g.regB then .pc1 else .ra, true, false⟩
  | .halt => ⟨false, .none, .none, false, false, .pc1, false, true⟩
  | .noop => ⟨false, .none, .none, false, false, .pc1, false, false⟩

/-- The write port of the register file, by `rf_we`, `rf_waddr` and `rf_wdata` (40 R94). -/
def writeBack (s : State) (g : Signals) (c : Control) : State :=
  let data : Word :=
    match c.rfWdata with
    | .aluAdd => g.aluAdd
    | .aluNor => g.aluNor
    | .memData => s.mem.cell g.ea.toNat
    | .pc1 => g.pc1
    | .none => 0
  if c.rfWe then
    match c.rfWaddr with
    | .destReg => s.setX g.destReg data
    | .regB => s.setX g.regB data
    | .none => s
  else s

/-- The value the sequencer loads into `pc` (40 R94). -/
def nextPc (g : Signals) (c : Control) : Word :=
  match c.pcSrc with
  | .pc1 => g.pc1
  | .pcb => g.pcb
  | .ra => g.ra

/-- The step the units make from the control table, in the order of 40 R96. For LW and SW with `ea_ok = 0` the step
faults instead (40 R94). -/
def datapathStep (s : State) : State :=
  if !s.takesStep then s
  else if !s.mem.valid s.pc then fetchFault s
  else
    let g := signals s (s.mem.cell s.pc.toNat)
    let c := controlRow g
    if g.sel.getLsbD 2 && !g.eaOk then raiseAddressFault .load g.ea s
    else if g.sel.getLsbD 3 && !g.eaOk then raiseAddressFault .store g.ea s
    else
      { (writeBack s g c) with
        mem := if c.memWr then s.mem.setCell g.ea.toNat g.rb else s.mem
        pc := nextPc g c
        run := if c.halt then .halted else s.run }

/-- One access through the memory port (10 R26, 20 R34). -/
inductive MemAccess where
  | fetch (a : Word)
  | read (a : Word)
  | write (a v : Word)
deriving DecidableEq, Repr

/-- The accesses a step performs, in order: the fetch, then at most one data access; an access that faults is not
performed (20 R34, R38, R39). -/
def accesses (s : State) : List MemAccess :=
  if !s.takesStep || !s.mem.valid s.pc then []
  else
    let g := signals s (s.mem.cell s.pc.toNat)
    let c := controlRow g
    .fetch s.pc ::
      (if c.memRd && g.eaOk then [.read g.ea] else if c.memWr then [.write g.ea g.rb] else [])

/-- What an access does to memory: only a write changes it (20 R35). -/
def applyAccess (m : Memory) : MemAccess → Memory
  | .fetch _ => m
  | .read _ => m
  | .write a v => m.setCell a.toNat v

end Sys2Proof.Machine
end

