-- ==== Sys2Proof/Machine/Reset.lean ====
section
/-! DEFINITION. Reset and the loading of an image (70 R170 to R173): the host's one way into the machine. -/

namespace Sys2Proof.Machine

/-- The cells of an image laid from address `i` upward, those that are 0 left out (70 R172). -/
def imageCells : Nat → List Word → List (Nat × Word)
  | _, [] => []
  | i, w :: rest => if w = 0 then imageCells (i + 1) rest else (i, w) :: imageCells (i + 1) rest

/-- Memory right after loading: `Mem[i] = image[i]` for `i < n`, 0 above (70 R172). -/
def Memory.ofImage (memWords : Nat) (image : List Word) : Memory := ⟨memWords, imageCells 0 image⟩

/-- The state after reset with an image (10 R27, 70 R170): every piece of state zero, `run = Running`, the image in
memory from address 0, the first step at `pc = 0` (70 R171). -/
def resetWith (memWords : Nat) (image : List Word) : State where
  pc := 0
  regs := Vector.replicate 8 0
  mem := Memory.ofImage memWords image
  run := .running
  fault := FaultRecord.empty

/-- The host's reset: it refuses a capacity the parameter does not admit (00 R4) and an image longer than memory
(70 R173), and otherwise the machine starts. -/
def loadImage (memWords : Nat) (image : List Word) : Host.Outcome State Fault Refusal :=
  if !memWordsOk memWords then .refused .capacityOutOfRange
  else if !imageOk memWords image then .refused .imageTooLong
  else .next (resetWith memWords image)

/-- The `reset` input asserted at any time (70 R170, R178): the length of memory stays, nothing else of the old run
survives. -/
def assertReset (s : State) (image : List Word) : Host.Outcome State Fault Refusal := loadImage s.mem.words image

end Sys2Proof.Machine
end

