-- ==== Sys2Proof/Machine/ImageText.lean ====
section
/-! DEFINITION. The machine-code text: one decimal integer a line (30 R80), and its loading (70 R174). -/

namespace Sys2Proof.Machine

/-- The cell a line with this value becomes: `v mod 2^32` (70 R174, 30 R76). -/
def cellOfValue (v : Int) : Word := BitVec.ofInt 32 v

/-- One line of the image text: its cell, or nothing when it is no decimal integer or does not fit (70 R174, D12). -/
def imageLineCell (line : List Char) : Option Word :=
  match parseInt line with
  | some v => if cellValueOk v then some (cellOfValue v) else none
  | none => none

/-- The cells of the lines, the first of them numbered `k`; the first malformed line is refused by its number. -/
def parseImageLines : Nat → List (List Char) → Except Refusal (List Word)
  | _, [] => .ok []
  | k, line :: rest =>
    match imageLineCell line with
    | none => .error (.malformedMachineWord k)
    | some w =>
      match parseImageLines (k + 1) rest with
      | .ok ws => .ok (w :: ws)
      | .error e => .error e

/-- The image a text holds. The empty text is the empty image; otherwise newlines stand between lines and none after
the last (30 R80), so a text that ends in a newline has an empty last line, which is malformed (log 5). -/
def parseImage (text : List Char) : Except Refusal (List Word) :=
  if text = [] then .ok []
  else
    let r := splitLines [] text
    parseImageLines 0 (r.1 ++ [r.2])

/-- The host's start of the machine from a machine-code file; no file is `FileNotFound` (70 R174). DESIGN CHOICE
(log 5): the spec orders no refusal of R174 before or after one of R173; the whole text is parsed first, so a malformed
line is what is reported, be it past the capacity or the capacity out of range. -/
def loadFile (memWords : Nat) (file : Option (List Char)) : Host.Outcome State Fault Refusal :=
  match file with
  | none => .refused .fileNotFound
  | some text =>
    match parseImage text with
    | .ok image => loadImage memWords image
    | .error e => .refused e

/-- The simulator's exit code for a load: 1 when the file is missing or a line does not parse (30 R81). DESIGN CHOICE
(log 5): 1 also for an image too long and a capacity out of range, and 0 for a load that is good; 30 R81 gives none of
these. (A fault has no case: `Fault` is empty.) -/
def loadExitCode : Host.Outcome State Fault Refusal → Nat
  | .next _ => 0
  | .fault _ => 1
  | .refused _ => 1

end Sys2Proof.Machine
end

