-- ==== Sys2Proof/Safety.lean ====
section
/-! DEFINITION. What claims speak of: the outcomes of a step (00 R7), runs and their ends (44 R143), the registers an
instruction reads and writes (10 R12), and the invariant of the machine. -/

namespace Sys2Proof.Machine

/-- The state a step answers, or the state itself where it answers none (no step of this machine does). -/
def stepState (s : State) : State :=
  match step s with
  | .next t => t
  | .fault _ => s
  | .refused _ => s

/-- The three outcomes of a step, kept distinct (00 R7). -/
inductive StepOutcome where
  /-- The instruction completed; `run` stays Running or becomes Halted. -/
  | completed (t : State)
  /-- The step raised an address fault; `run` became Faulted. -/
  | faulted (t : State)
  /-- The core is Halted or Faulted: no step is taken. -/
  | noStep
deriving DecidableEq, Repr

/-- The outcome of a step, read from `run` before and after it (00 R7; log 2). -/
def stepOutcome (s : State) : StepOutcome :=
  if !s.takesStep then .noStep
  else if (stepState s).run = .faulted then .faulted (stepState s)
  else .completed (stepState s)

/-- The state after at most `k` steps. -/
def runFor : Nat → State → State
  | 0, s => s
  | k + 1, s => runFor k (stepState s)

/-- The trace of a run of at most `k` steps: the states before each step taken, then the final state (40 R100). -/
def trace : Nat → State → List State
  | 0, s => [s]
  | k + 1, s => if s.takesStep then s :: trace k (stepState s) else [s]

/-- The executed-instruction count of a run of at most `k` steps: HALT counted, a step that faults not (10 R23, D24). -/
def completedSteps : Nat → State → Nat
  | 0, _ => 0
  | k + 1, s =>
    match stepOutcome s with
    | .completed t => completedSteps k t + 1
    | .faulted _ => 0
    | .noStep => 0

/-- A run ends normally within `k` steps when it reaches `Halted` (44 R143). -/
def endsNormally (k : Nat) (s : State) : Bool := (runFor k s).run == .halted

/-- A run is safe for `k` steps when it has raised no fault: `Faulted` is never the end of a correct run (10 R17). -/
def safeFor (k : Nat) (s : State) : Bool := (runFor k s).run != .faulted

/-- The registers an instruction reads (10 R12). -/
def registersRead : Instr → List RegNum
  | .add a b _ => [a, b]
  | .nor a b _ => [a, b]
  | .lw a _ _ => [a]
  | .sw a b _ => [a, b]
  | .beq a b _ => [a, b]
  | .jalr a _ => [a]
  | .halt => []
  | .noop => []

/-- The register an instruction writes when it completes (10 R12). -/
def registerWritten : Instr → Option RegNum
  | .add _ _ d => some d
  | .nor _ _ d => some d
  | .lw _ b _ => some b
  | .sw _ _ _ => none
  | .beq _ _ _ => none
  | .jalr _ b => some b
  | .halt => none
  | .noop => none

/-- The effective address of the instruction at `pc` when it is a load of that kind, a store, or neither. -/
def dataAddress (s : State) : Instr → Option (FaultKind × Word)
  | .lw a _ off => some (.load, effectiveAddress (s.x a) off)
  | .sw a _ off => some (.store, effectiveAddress (s.x a) off)
  | .add _ _ _ => none
  | .nor _ _ _ => none
  | .beq _ _ _ => none
  | .jalr _ _ => none
  | .halt => none
  | .noop => none

/-- The instruction in the cell with this number. -/
def instrAt (s : State) (a : Nat) : Instr := decode (s.mem.cell a)

/-- The fault record says what 60 R151 and R156 say: empty unless Faulted; then `fpc` is `pc`, a fetch fault's address
is `pc` itself and not valid, and a load or store fault is the instruction at `pc` with its address not valid. -/
def recordFits (s : State) : Bool :=
  match s.run with
  | .running => s.fault == FaultRecord.empty
  | .halted => s.fault == FaultRecord.empty
  | .faulted =>
    s.fault.fpc == s.pc && !s.mem.valid s.fault.faddr &&
      (if s.mem.valid s.pc then dataAddress s (instrAt s s.pc.toNat) == some (s.fault.kind, s.fault.faddr)
       else s.fault.kind == .fetch && s.fault.faddr == s.pc)

/-- A halted core stands one past a HALT in memory (44 R140, R143). -/
def haltFits (s : State) : Bool :=
  s.run != .halted || (decide (1 ≤ s.pc.toNat) && decide (s.pc.toNat ≤ s.mem.words) && instrAt s (s.pc.toNat - 1) == .halt)

/-- The invariant of the machine: memory in its canonical form, a capacity 00 R4 admits, and a fault record and a halt
that agree with the run state. -/
def State.inv (s : State) : Bool :=
  decide s.mem.wf && memWordsOk s.mem.words && recordFits s && haltFits s

end Sys2Proof.Machine
end

