-- ==== Sys2Proof/Certificates/Slice0/Obligations.lean ====
section
/-! DEFINITION. The statements for the provers. Each names the part of spec/ it formalises; "D<n>" is a decision of
92_eei_decisions.md, "log <n>" a file of notes/assumptions/. -/

open Sys2Proof Sys2Proof.Machine

/-! ### Encoding (30 part A) -/

/-- Decode and encode agree on every instruction, with every operand at every value (30 R51 to R59). -/
def Obligations.DecodeEncodeRoundTrip : Prop := ∀ i : Instr, decode (encode i) = i

/-- The canonical words are exactly the words that encoding their instruction gives back (30 R59). -/
def Obligations.CanonicalWordsAreEncodings : Prop := ∀ w : Word, canonicalWord w = true ↔ encode (decode w) = w

/-- 30 R59: the four formulas, that every bit the format does not name is zero, and the bound `2^25`. -/
def Obligations.CanonicalEncodingFormulas : Prop :=
  (∀ (a b d : RegNum) (off : OffsetField),
    (encode (.add a b d)).toNat = 0 * 2 ^ 22 + a.toNat * 2 ^ 19 + b.toNat * 2 ^ 16 + d.toNat ∧
    (encode (.nor a b d)).toNat = 1 * 2 ^ 22 + a.toNat * 2 ^ 19 + b.toNat * 2 ^ 16 + d.toNat ∧
    (encode (.lw a b off)).toNat = 2 * 2 ^ 22 + a.toNat * 2 ^ 19 + b.toNat * 2 ^ 16 + (off.toInt % 2 ^ 16).toNat ∧
    (encode (.sw a b off)).toNat = 3 * 2 ^ 22 + a.toNat * 2 ^ 19 + b.toNat * 2 ^ 16 + (off.toInt % 2 ^ 16).toNat ∧
    (encode (.beq a b off)).toNat = 4 * 2 ^ 22 + a.toNat * 2 ^ 19 + b.toNat * 2 ^ 16 + (off.toInt % 2 ^ 16).toNat ∧
    (encode (.jalr a b)).toNat = 5 * 2 ^ 22 + a.toNat * 2 ^ 19 + b.toNat * 2 ^ 16 ∧
    (encode .halt).toNat = 6 * 2 ^ 22 ∧
    (encode .noop).toNat = 7 * 2 ^ 22) ∧
  ∀ i : Instr, canonicalWord (encode i) = true ∧ (encode i).toNat < 2 ^ 25

/-- 30 R58: which bits each operation names, that two words are the same instruction exactly when they agree on them,
and that they then have the same effect. -/
def Obligations.IgnoredBitsDoNotMatter : Prop :=
  (namedBits .add = 0x01FF0007 ∧ namedBits .nor = 0x01FF0007 ∧ namedBits .lw = 0x01FFFFFF ∧
    namedBits .sw = 0x01FFFFFF ∧ namedBits .beq = 0x01FFFFFF ∧ namedBits .jalr = 0x01FF0000 ∧
    namedBits .halt = 0x01C00000 ∧ namedBits .noop = 0x01C00000) ∧
  ∀ w w' : Word,
    (decode w = decode w' ↔ w &&& namedBits (decode w).opcode = w' &&& namedBits (decode w).opcode) ∧
    (w &&& namedBits (decode w).opcode = w' &&& namedBits (decode w).opcode →
      ∀ s, exec (decode w) s = exec (decode w') s)

/-- 30 R62: for every word exactly one row of the opcode table matches, and it is the decoder's operation. -/
def Obligations.OpcodeTablePartitionsWords : Prop :=
  ∀ w : Word, (opcodeTable.filter (fun r => r.takes w)).length = 1 ∧
    ∀ r ∈ opcodeTable, r.mask = 0x01C00000 ∧ (r.takes w = true ↔ r.opcode = (decode w).opcode)

/-- 30 R52 to R56: the opcode selects the instruction, and its format the fields, for every value of the opcode. -/
def Obligations.OpcodeSelectsFormat : Prop :=
  ∀ w : Word,
    (w.extractLsb' 22 3 = 0#3 → decode w = .add (w.extractLsb' 19 3) (w.extractLsb' 16 3) (w.extractLsb' 0 3)) ∧
    (w.extractLsb' 22 3 = 1#3 → decode w = .nor (w.extractLsb' 19 3) (w.extractLsb' 16 3) (w.extractLsb' 0 3)) ∧
    (w.extractLsb' 22 3 = 2#3 → decode w = .lw (w.extractLsb' 19 3) (w.extractLsb' 16 3) (w.extractLsb' 0 16)) ∧
    (w.extractLsb' 22 3 = 3#3 → decode w = .sw (w.extractLsb' 19 3) (w.extractLsb' 16 3) (w.extractLsb' 0 16)) ∧
    (w.extractLsb' 22 3 = 4#3 → decode w = .beq (w.extractLsb' 19 3) (w.extractLsb' 16 3) (w.extractLsb' 0 16)) ∧
    (w.extractLsb' 22 3 = 5#3 → decode w = .jalr (w.extractLsb' 19 3) (w.extractLsb' 16 3)) ∧
    (w.extractLsb' 22 3 = 6#3 → decode w = .halt) ∧
    (w.extractLsb' 22 3 = 7#3 → decode w = .noop)

/-- Words of 95 section 2.1, written out from the encodings of 30, decode to the instructions they stand for. -/
def Obligations.SampleWordsDecode : Prop :=
  decode 0b0000000_000_001_010_0000000000000_011 = .add 1 2 3 ∧
  decode 0b0000000_001_001_001_0000000000000_010 = .nor 1 1 2 ∧
  decode 0b0000000_010_111_100_0110000101001110 = .lw 7 4 24910 ∧
  decode 0b0000000_011_000_010_0000000000001100 = .sw 0 2 12 ∧
  decode 0b0000000_100_000_000_1111111111111101 = .beq 0 0 (-3) ∧
  decode 0b0000000_101_001_010_0000000000000000 = .jalr 1 2 ∧
  decode 0b0000000_110_0000000000000000000000 = .halt ∧
  decode 0b1111111_111_1111111111111111111111 = .noop

/-- 30 A.3 and `sext_32` of 00 section 5: the offset's sign extension, by the two cases of the field's top bit, and its
signed reading in `-32768 .. 32767`. -/
def Obligations.OffsetIsSignExtended : Prop :=
  ∀ f : OffsetField,
    (f.getLsbD 15 = false → (sext32 f).toNat = f.toNat) ∧
    (f.getLsbD 15 = true → (sext32 f).toNat = 0xFFFF0000 + f.toNat) ∧
    (sext32 f).toInt = f.toInt ∧ -32768 ≤ f.toInt ∧ f.toInt ≤ 32767

/-! ### Reset and the image (10 section 8, 70) -/

/-- 70 R172 and R171: loading writes the image from address 0 and leaves 0 above it, as part of reset; the first step
then executes the word at address 0. The other values after reset are those of 10 section 8. -/
def Obligations.ResetLoadsImage : Prop :=
  ∀ (memWords : Nat) (image : List Word), memWordsOk memWords = true → image.length ≤ memWords →
    ∃ t, loadImage memWords image = .next t ∧ t.pc = 0 ∧ (∀ r, t.x r = 0) ∧ t.mem.words = memWords ∧
      (∀ i (h : i < image.length), t.mem.cell i = image[i]) ∧
      (∀ i, image.length ≤ i → t.mem.cell i = 0) ∧
      t.run = .running ∧ t.fault = ⟨.none, 0, 0⟩ ∧
      ∀ h : 0 < image.length, step t = exec (decode image[0]) t

/-- 70 R173: an image with more words than memory is not loaded; the machine does not start. -/
def Obligations.OversizedImageRefused : Prop :=
  ∀ (memWords : Nat) (image : List Word), memWordsOk memWords = true → memWords < image.length →
    loadImage memWords image = .refused .imageTooLong

/-- The host's `State.reset` is the reset of 10 section 8 with an empty image. That its memory has 65536 cells is the
model's choice (log 1), and nothing here rests on the number. -/
def Obligations.ResetStateValues : Prop :=
  State.reset.pc = 0 ∧ (∀ r, State.reset.x r = 0) ∧ (∀ a, State.reset.mem.cell a = 0) ∧
  State.reset.run = .running ∧ State.reset.fault = ⟨.none, 0, 0⟩ ∧
  loadImage State.reset.mem.words [] = .next State.reset

/-- 30 B.4 and 70 section 2: a machine-code file written from output words that fit a cell loads as their cells. That a
value `v` becomes the cell `v mod 2^32` is the spec's own decision (D12); that the text of no words, the empty text, is
the empty image is the model's choice (log 5). -/
def Obligations.MachineCodeTextLoads : Prop :=
  ∀ (memWords : Nat) (ws : List MachineWord), (∀ w ∈ ws, cellValueOk w.value = true) →
    loadFile memWords (some (machineCodeText ws)) = loadImage memWords (ws.map MachineWord.cell)

/-- 70 section 2: the first line that is no decimal integer of a cell's range is refused. That an integer outside the
range is malformed is the spec's own decision (D12). The model's choices (log 5): the refusal carries the line's number;
a text ending in a newline has a last line, the empty one; a malformed line is reported before an image too long or a
capacity out of range. The empty text is left out: it is an image (log 5). -/
def Obligations.FirstMalformedLineRefused : Prop :=
  ∀ (memWords : Nat) (lines : List (List Char)) (k : Nat) (h : k < lines.length), lines ≠ [[]] →
    (∀ line ∈ lines, '\n' ∉ line) → imageLineCell lines[k] = none →
    (∀ j (hj : j < k), imageLineCell (lines[j]'(Nat.lt_trans hj h)) ≠ none) →
    loadFile memWords (some (joinLines lines)) = .refused (.malformedMachineWord k)

/-- 70 sections 1 and 6 (D14): reset with an image that fits starts the machine anew from any state, Halted and Faulted
among them, and nothing of the old run survives. That the capacity the reset finds stays, `t.mem.words = s.mem.words`,
is the model's choice (log 5). -/
def Obligations.ResetRestartsAnyState : Prop :=
  ∀ (s : State) (image : List Word), s.inv = true → image.length ≤ s.mem.words →
    ∃ t, assertReset s image = .next t ∧ t.run = .running ∧ t.pc = 0 ∧ t.mem.words = s.mem.words ∧ t.inv = true ∧
      ∀ s' : State, s'.mem.words = s.mem.words → assertReset s' image = .next t

/-- 10 sections 5 and 7, 60 section 2 (D9): the status port shows `run` as 0, 1 or 2, and the record with its kind as 0 to
3; every kind the step can record has its own code. -/
def Obligations.StatusPortCodes : Prop :=
  ∀ s : State,
    (s.runPort = 0 ↔ s.run = .running) ∧ (s.runPort = 1 ↔ s.run = .halted) ∧ (s.runPort = 2 ↔ s.run = .faulted) ∧
    (∀ a, (raiseAddressFault .fetch a s).faultPort = (1, s.pc, a) ∧ (raiseAddressFault .load a s).faultPort = (2, s.pc, a) ∧
      (raiseAddressFault .store a s).faultPort = (3, s.pc, a)) ∧
    State.reset.faultPort = (0, 0, 0)

/-! ### The instructions (41 to 44) -/

/-- 41 R110, ADD: syntax, encoding, result, and that nothing else changes; every register may be the destination. -/
def Obligations.AddWritesWrappedSum : Prop :=
  (∀ w : Word, w.extractLsb' 22 3 = 0#3 →
    decode w = .add (w.extractLsb' 19 3) (w.extractLsb' 16 3) (w.extractLsb' 0 3)) ∧
  ∀ (a b d : RegNum) (s : State),
    (∀ table addr, assembleLine table addr
      (" add ".toList ++ natText a.toNat ++ ' ' :: natText b.toNat ++ ' ' :: natText d.toNat) =
        .ok (.instr (encode (.add a b d)))) ∧
    (encode (.add a b d)).toNat = a.toNat * 2 ^ 19 + b.toNat * 2 ^ 16 + d.toNat ∧
    ∃ t, exec (.add a b d) s = .next t ∧
      (t.x d).toNat = ((s.x a).toNat + (s.x b).toNat) % 2 ^ 32 ∧
      (∀ r, r ≠ d → t.x r = s.x r) ∧ t.pc.toNat = (s.pc.toNat + 1) % 2 ^ 32 ∧
      t.mem = s.mem ∧ t.run = s.run ∧ t.fault = s.fault

/-- 41 R111, NOR: syntax, encoding, result bit by bit, and that nothing else changes. -/
def Obligations.NorWritesComplementOfOr : Prop :=
  (∀ w : Word, w.extractLsb' 22 3 = 1#3 →
    decode w = .nor (w.extractLsb' 19 3) (w.extractLsb' 16 3) (w.extractLsb' 0 3)) ∧
  ∀ (a b d : RegNum) (s : State),
    (∀ table addr, assembleLine table addr
      (" nor ".toList ++ natText a.toNat ++ ' ' :: natText b.toNat ++ ' ' :: natText d.toNat) =
        .ok (.instr (encode (.nor a b d)))) ∧
    (encode (.nor a b d)).toNat = 2 ^ 22 + a.toNat * 2 ^ 19 + b.toNat * 2 ^ 16 + d.toNat ∧
    ∃ t, exec (.nor a b d) s = .next t ∧
      (∀ i, i < 32 → ((t.x d).getLsbD i = true ↔ (s.x a).getLsbD i = false ∧ (s.x b).getLsbD i = false)) ∧
      (∀ r, r ≠ d → t.x r = s.x r) ∧ t.pc.toNat = (s.pc.toNat + 1) % 2 ^ 32 ∧
      t.mem = s.mem ∧ t.run = s.run ∧ t.fault = s.fault

/-- 42 section 2, LW: with a valid effective address it completes with the whole cell in `x[regB]`; otherwise it faults
and changes nothing but `run` and the record, which is the spec's own decision (D3, D9). -/
def Obligations.LwLoadsOrFaults : Prop :=
  ∀ (a b : RegNum) (off : OffsetField) (s : State),
    (s.mem.valid (effectiveAddress (s.x a) off) = true →
      ∃ t, exec (.lw a b off) s = .next t ∧
        t.x b = s.mem.cell (effectiveAddress (s.x a) off).toNat ∧
        (∀ r, r ≠ b → t.x r = s.x r) ∧ t.pc.toNat = (s.pc.toNat + 1) % 2 ^ 32 ∧
        t.mem = s.mem ∧ t.run = s.run ∧ t.fault = s.fault) ∧
    (s.mem.valid (effectiveAddress (s.x a) off) = false →
      exec (.lw a b off) s =
        .next { s with run := .faulted, fault := ⟨.load, s.pc, effectiveAddress (s.x a) off⟩ })

/-- 42 section 3, SW: with a valid effective address it completes with `x[regB]` in that one cell; otherwise it faults
and changes nothing but `run` and the record, which is the spec's own decision (D3, D9). -/
def Obligations.SwStoresOrFaults : Prop :=
  ∀ (a b : RegNum) (off : OffsetField) (s : State),
    (s.mem.valid (effectiveAddress (s.x a) off) = true →
      ∃ t, exec (.sw a b off) s = .next t ∧
        t.mem.cell (effectiveAddress (s.x a) off).toNat = s.x b ∧
        (∀ n, n ≠ (effectiveAddress (s.x a) off).toNat → t.mem.cell n = s.mem.cell n) ∧
        t.mem.words = s.mem.words ∧ (∀ r, t.x r = s.x r) ∧
        t.pc.toNat = (s.pc.toNat + 1) % 2 ^ 32 ∧ t.run = s.run ∧ t.fault = s.fault) ∧
    (s.mem.valid (effectiveAddress (s.x a) off) = false →
      exec (.sw a b off) s =
        .next { s with run := .faulted, fault := ⟨.store, s.pc, effectiveAddress (s.x a) off⟩ })

/-- 43 section 1, BEQ: all 32 bits compared; taken it goes to `pc + 1 + offset`, not taken to `pc + 1`, the amount that
is the spec's own decision (D8, 90 C2); nothing but `pc` changes. -/
def Obligations.BeqChangesOnlyPc : Prop :=
  ∀ (a b : RegNum) (off : OffsetField) (s : State), ∃ t, exec (.beq a b off) s = .next t ∧
    (s.x a = s.x b → (t.pc.toNat : Int) = ((s.pc.toNat : Int) + 1 + off.toInt) % 2 ^ 32) ∧
    (s.x a ≠ s.x b → t.pc.toNat = (s.pc.toNat + 1) % 2 ^ 32) ∧
    t = { s with pc := t.pc }

/-- 43 section 2, JALR: the link `pc + 1` goes to `x[regB]`, and `pc` to `x[regA]` read after that write; that
`jalr r r` therefore goes to `pc + 1` is the spec's own decision (D7). -/
def Obligations.JalrLinksThenJumps : Prop :=
  ∀ (a b : RegNum) (s : State), ∃ t, exec (.jalr a b) s = .next t ∧
    (t.x b).toNat = (s.pc.toNat + 1) % 2 ^ 32 ∧
    (∀ r, r ≠ b → t.x r = s.x r) ∧
    (a ≠ b → t.pc = s.x a) ∧ (a = b → t.pc.toNat = (s.pc.toNat + 1) % 2 ^ 32) ∧
    t.mem = s.mem ∧ t.run = s.run ∧ t.fault = s.fault

/-- 44 R140, HALT: syntax, encoding, `pc + 1` once, `run = Halted`, nothing else; after it no step is taken. -/
def Obligations.HaltStopsOnePast : Prop :=
  (∀ w : Word, w.extractLsb' 22 3 = 6#3 → decode w = .halt) ∧
  (∀ table addr, assembleLine table addr " halt".toList = .ok (.instr (encode .halt))) ∧
  (encode .halt).toNat = 25165824 ∧
  ∀ s : State, ∃ t, exec .halt s = .next t ∧
    t.pc.toNat = (s.pc.toNat + 1) % 2 ^ 32 ∧ t.run = .halted ∧ (∀ r, t.x r = s.x r) ∧
    t.mem = s.mem ∧ t.fault = s.fault ∧ stepOutcome t = .noStep

/-- 44 R141, NOOP: syntax, encoding, and no effect beyond `pc + 1`. -/
def Obligations.NoopOnlyAdvances : Prop :=
  (∀ w : Word, w.extractLsb' 22 3 = 7#3 → decode w = .noop) ∧
  (∀ table addr, assembleLine table addr " noop".toList = .ok (.instr (encode .noop))) ∧
  (encode .noop).toNat = 29360128 ∧
  ∀ s : State, ∃ t, exec .noop s = .next t ∧ t.pc.toNat = (s.pc.toNat + 1) % 2 ^ 32 ∧ t = { s with pc := t.pc }

/-- 41 section 3: the sum is the same for the signed reading, wrapped into 32 bits; it equals the exact signed sum
whenever that fits. -/
def Obligations.AddAgreesWithSignedReading : Prop :=
  ∀ (a b d : RegNum) (s t : State), exec (.add a b d) s = .next t →
    (t.x d).toInt = ((s.x a).toInt + (s.x b).toInt).bmod (2 ^ 32) ∧
    (-(2 ^ 31) ≤ (s.x a).toInt + (s.x b).toInt → (s.x a).toInt + (s.x b).toInt < 2 ^ 31 →
      (t.x d).toInt = (s.x a).toInt + (s.x b).toInt)

/-- 42 section 1: under the bound on `MEMWORDS` (D2) the wrapped effective address is valid exactly when the exact signed
sum is in range, and is then that sum (D6). -/
def Obligations.EffectiveAddressIsSignedSum : Prop :=
  ∀ (m : Memory) (base : Word) (off : OffsetField), memWordsOk m.words = true →
    (m.valid (effectiveAddress base off) = true ↔
      0 ≤ base.toInt + off.toInt ∧ base.toInt + off.toInt < (m.words : Int)) ∧
    (m.valid (effectiveAddress base off) = true →
      ((effectiveAddress base off).toNat : Int) = base.toInt + off.toInt)

/-- 30 R75: the offset encoded for a branch at `a` to a label at `t` is `t - (a + 1)`, and the branch taken goes to
`t`; with the rule's own instance. -/
def Obligations.BranchOffsetRoundTrip : Prop :=
  (∀ (a t : Nat) (ra rb : RegNum), offsetOk ((t : Int) - ((a : Int) + 1)) = true →
    (∀ (table : LabelTable) (line label : List Char), lookupLabel table label = some t → parseInt label = none →
      (parseLine line).mnemonic = "beq".toList →
      (parseLine line).args = [natText ra.toNat, natText rb.toNat, label] →
      assembleLine table a line =
        .ok (.instr (encode (.beq ra rb (BitVec.ofInt 16 ((t : Int) - ((a : Int) + 1))))))) ∧
    ∀ s : State, s.pc = BitVec.ofNat 32 a → s.x ra = s.x rb →
      exec (.beq ra rb (BitVec.ofInt 16 ((t : Int) - ((a : Int) + 1)))) s = .next { s with pc := BitVec.ofNat 32 t }) ∧
  branchOffset 4 2 = -3 ∧ BitVec.ofInt 16 (branchOffset 4 2) = 0xFFFD#16

/-! ### Frames and information flow (10 section 2) -/

/-- 10 section 2 and 20 section 4: the frame of all eight instructions. Only the register the instruction writes
changes; only SW changes memory, and only the cell at its effective address; the record changes only with a fault, and
`run` only by HALT or a fault. -/
def Obligations.InstructionFrame : Prop :=
  ∀ (i : Instr) (s t : State), exec i s = .next t →
    (∀ r, registerWritten i ≠ some r → t.x r = s.x r) ∧
    (∀ n, (∀ a b off, i = .sw a b off → n ≠ (effectiveAddress (s.x a) off).toNat) →
      t.mem.cell n = s.mem.cell n) ∧
    t.mem.words = s.mem.words ∧
    (t.run = s.run ∨ (i = .halt ∧ t.run = .halted) ∨ t.run = .faulted) ∧
    (t.fault = s.fault ∨ t.run = .faulted)

/-- 10 section 2: what an instruction does depends only on the registers 10 R12 says it reads: two running states that
agree on those, and on all that is no register, end alike, the written register included. -/
def Obligations.ReadsOnlyNamedRegisters : Prop :=
  ∀ (i : Instr) (s s' t t' : State), s.run = .running → s'.run = .running → s.pc = s'.pc → s.mem = s'.mem →
    s.fault = s'.fault → (∀ r ∈ registersRead i, s.x r = s'.x r) → exec i s = .next t → exec i s' = .next t' →
    t.pc = t'.pc ∧ t.mem = t'.mem ∧ t.run = t'.run ∧ t.fault = t'.fault ∧
    (t.run ≠ .faulted → ∀ r, registerWritten i = some r → t.x r = t'.x r)

/-- 60 section 3 (D9): a step that faults changes only `run` and the record, which holds the step's `pc` and an address
outside memory. -/
def Obligations.FaultIsPrecise : Prop :=
  ∀ s t : State, s.run = .running → step s = .next t → t.run = .faulted →
    ∃ (k : FaultKind) (a : Word), k ≠ .none ∧ s.mem.words ≤ a.toNat ∧
      t = { s with run := .faulted, fault := ⟨k, s.pc, a⟩ }

/-! ### The step (40) -/

/-- 40 section 5: when the core runs and `pc` is in memory, the step is the effect of the instruction decoded from the
cell at `pc`, and nothing is added around it; so a word placed there is what the next step runs. -/
def Obligations.StepRunsDecodedInstruction : Prop :=
  ∀ s : State, s.run = .running → s.pc.toNat < s.mem.words →
    step s = exec (decode (s.mem.cell s.pc.toNat)) s ∧
    ∀ w : Nat, w < 2 ^ 32 →
      step (s.withFetchWord 32 w) = exec (decode (BitVec.ofNat 32 w)) (s.withFetchWord 32 w)

/-- 60 section 2 (D4): a fetch outside memory faults, whatever lies in memory; `pc` stays. -/
def Obligations.FetchOutsideMemoryFaults : Prop :=
  ∀ s : State, s.run = .running → s.mem.words ≤ s.pc.toNat →
    step s = .next { s with run := .faulted, fault := ⟨.fetch, s.pc, s.pc⟩ }

/-- 10 section 5: a core that is Halted or Faulted takes no step and keeps its state. That the model's step then answers
the same state is its choice (log 2). -/
def Obligations.StoppedCoreKeepsState : Prop :=
  ∀ (s : State) (k : Nat), s.run ≠ .running →
    Host.Core.run Sys2Proof.core k s = .next s ∧ stepOutcome s = .noStep ∧ completedSteps k s = 0

/-- 40 section 4: no instruction and no step is refused or stopped; each answers a next state. That a step of a Halted
or Faulted core answers a next state, the same one, is the model's choice (log 2). -/
def Obligations.EveryStepAnswers : Prop :=
  (∀ (i : Instr) (s : State), ∃ t, exec i s = .next t) ∧
  ∀ (s : State) (k : Nat), Host.Core.run Sys2Proof.core k s = .next (runFor k s)

/-- 40 R95: the exemption set is BEQ and JALR, keyed by the opcode alone; every other instruction that does not fault
leaves `pc + 1`, and it is the generic increment's one write. -/
def Obligations.PcUpdatePolicy : Prop :=
  (∀ o : Opcode, ownsPc o = true ↔ o = .beq ∨ o = .jalr) ∧
  (∀ (s : State) (iw : Word), (signals s iw).ownsPc = ownsPc (decode iw).opcode) ∧
  ∀ (i : Instr) (s t : State), s.run = .running → exec i s = .next t → t.run ≠ .faulted →
    ownsPc i.opcode = false → t.pc.toNat = (s.pc.toNat + 1) % 2 ^ 32

/-- 20 section 8: a store to the next instruction's cell is what the very next step fetches and executes. -/
def Obligations.StoredWordIsFetchedNext : Prop :=
  ∀ (s : State) (a b : RegNum) (off : OffsetField), s.run = .running → s.mem.valid s.pc = true →
    decode (s.mem.cell s.pc.toNat) = .sw a b off → effectiveAddress (s.x a) off = s.pc + 1 →
    s.mem.valid (s.pc + 1) = true →
    ∃ t, step s = .next t ∧ t.pc = s.pc + 1 ∧ step t = exec (decode (s.x b)) t

/-- 20 section 4: a load from the cell a store has just written gives the stored register, whatever it held. -/
def Obligations.LoadAfterStore : Prop :=
  ∀ (a b d : RegNum) (off : OffsetField) (s : State), s.mem.valid (effectiveAddress (s.x a) off) = true →
    ∃ t u, exec (.sw a b off) s = .next t ∧ exec (.lw a d off) t = .next u ∧ u.x d = s.x b ∧ u.mem = t.mem

/-- 40 section 2: the units driven by the control-signal table make exactly the step, in every state. The table's fault
and JALR rows rest on the spec's decisions D3, D4 and D7; that in a stopped state both answer that state is the model's
choice (log 2). -/
def Obligations.DatapathRefinesStep : Prop := ∀ s : State, step s = .next (datapathStep s)

/-- 40 R93: `sel[k] = (opcode == k)`, so exactly one is 1, and it is the handler of the decoded instruction. -/
def Obligations.DispatchSelectsOneHandler : Prop :=
  ∀ (s : State) (iw : Word) (k : Nat), k < 8 →
    ((signals s iw).sel.getLsbD k = true ↔ (iw.extractLsb' 22 3).toNat = k) ∧
    ((signals s iw).sel.getLsbD k = true ↔ (decode iw).opcode.bits.toNat = k)

/-- 20 section 4: a step makes its fetch and then at most one data access, a read for LW and a write for SW, and memory
after it is memory before it with those accesses made. An access at an address that is not valid raises the fault of D3
or D4 and is not made; a stopped core makes none (that its step answers at all is the model's choice, log 2). -/
def Obligations.MemoryPortAccesses : Prop :=
  ∀ s t : State, step s = .next t →
    t.mem = (accesses s).foldl applyAccess s.mem ∧
    (s.run = .running → s.mem.valid s.pc = true →
      ∃ rest, accesses s = .fetch s.pc :: rest ∧
        (∀ a b off, instrAt s s.pc.toNat = .lw a b off → s.mem.valid (effectiveAddress (s.x a) off) = true →
          rest = [.read (effectiveAddress (s.x a) off)]) ∧
        (∀ a b off, instrAt s s.pc.toNat = .sw a b off → s.mem.valid (effectiveAddress (s.x a) off) = true →
          rest = [.write (effectiveAddress (s.x a) off) (s.x b)]) ∧
        (∀ k ea, dataAddress s (instrAt s s.pc.toNat) = some (k, ea) → s.mem.valid ea = false → rest = []) ∧
        (dataAddress s (instrAt s s.pc.toNat) = none → rest = [])) ∧
    (s.run ≠ .running ∨ s.mem.valid s.pc = false → accesses s = [])

/-! ### Invariants and whole-machine rules -/

/-- The invariant of the machine (canonical memory, an admitted capacity, a record and a halt that agree with `run`; 10
sections 5 and 8, 60 section 2) is kept by every step from every state that meets it. Its bounds and its record are
those of D2 and D9; a stopped core's step answers the same state by the model's choice (log 2). -/
def Obligations.StepKeepsInvariant : Prop := ∀ s t : State, s.inv = true → step s = .next t → t.inv = true

/-- The reset state, whose capacity is the model's choice (log 1), and the state after reset with any image and any
capacity that load, meet the invariant. -/
def Obligations.ResetMeetsInvariant : Prop :=
  State.reset.inv = true ∧
  ∀ (memWords : Nat) (image : List Word) (t : State), loadImage memWords image = .next t → t.inv = true

/-- Every state of a run of any loaded image meets the invariant, and the capacity never changes; past the end of the
run the model's step answers the same state, its choice (log 2). -/
def Obligations.RunsKeepInvariant : Prop :=
  ∀ (memWords : Nat) (image : List Word) (t u : State) (k : Nat), loadImage memWords image = .next t →
    Host.Core.run Sys2Proof.core k t = .next u → u.inv = true ∧ u.mem.words = memWords

/-- 10 section 3: under the bound on `MEMWORDS` (D2), in every step that executes an instruction `pc + 1` does not wrap
and is at most `MEMWORDS`; so every instruction but BEQ and JALR leaves a `pc` that is a cell's or one past the last. -/
def Obligations.ExecutingPcDoesNotWrap : Prop :=
  ∀ s t : State, s.inv = true → s.run = .running → s.pc.toNat < s.mem.words → step s = .next t →
    (s.pc + 1).toNat = s.pc.toNat + 1 ∧ s.pc.toNat + 1 ≤ s.mem.words ∧
    (ownsPc (instrAt s s.pc.toNat).opcode = false → t.pc.toNat ≤ s.mem.words)

/-- 44 sections 1 and 4: a running core becomes Halted exactly when the instruction it fetches is HALT. -/
def Obligations.OnlyHaltHalts : Prop :=
  ∀ s t : State, s.run = .running → step s = .next t →
    (t.run = .halted ↔ s.mem.valid s.pc = true ∧ instrAt s s.pc.toNat = .halt)

/-- 60 sections 1 and 2 (D3, D4): a running core faults exactly when the fetch, or else the data address of a fetched LW
or SW, is outside memory. -/
def Obligations.FaultOnlyOutsideMemory : Prop :=
  ∀ s t : State, s.run = .running → step s = .next t →
    (t.run = .faulted ↔ s.mem.words ≤ s.pc.toNat ∨
      ∃ k ea, dataAddress s (instrAt s s.pc.toNat) = some (k, ea) ∧ s.mem.words ≤ ea.toNat)

/-- 10 section 6 and 40 section 4: the trace of a run holds one state for each completed step, one for a step that
faulted, and the final state. That a faulting step is not counted as executed is the spec's own decision D24, and that
a run shows the states between its steps and no other report is its decision D25; past the end of the run the model's
step answers the same state, its choice (log 2). -/
def Obligations.TraceCountsSteps : Prop :=
  ∀ (s : State) (k : Nat), s.run ≠ .faulted →
    (trace k s).length = completedSteps k s + (if (runFor k s).run = .faulted then 1 else 0) + 1

/-! ### The assembler (30 part B) -/

/-- 30 B.3: every instruction written as a statement with numeric operands assembles to its canonical word. -/
def Obligations.NumericStatementsAssemble : Prop :=
  ∀ (table : LabelTable) (addr : Nat) (i : Instr), assembleLine table addr (instrText i) = .ok (.instr (encode i))

/-- 30 R82: assembling the disassembly of an output gives the same words, for the output of any source and for any
canonical instruction words and `.fill` values; the assembler must take lines of 18 characters. -/
def Obligations.ReassemblyIsIdempotent : Prop :=
  (∀ (p : AsmParams) (source : List Char) (ws : List MachineWord), 18 ≤ p.maxLine → assemble p source = .ok ws →
    assemble p (disassemble ws) = .ok ws) ∧
  ∀ (p : AsmParams) (ws : List MachineWord), 18 ≤ p.maxLine →
    (∀ w, .instr w ∈ ws → canonicalWord w = true) → (∀ v, .fill v ∈ ws → cellValueOk v = true) →
    assemble p (disassemble ws) = .ok ws

/-- 30 R69: every line consumes one address, its ordinal, and produces one word, at that address. -/
def Obligations.OneWordPerLine : Prop :=
  ∀ (p : AsmParams) (source : List Char) (ws : List MachineWord), assemble p source = .ok ws →
    ∃ table, buildTable p 0 [] (splitLines [] source).1 = .ok table ∧
      ws.length = (splitLines [] source).1.length ∧
      ∀ k (h : k < ws.length) (h' : k < (splitLines [] source).1.length),
        assembleLine table k (splitLines [] source).1[k] = .ok ws[k]

/-- 30 B.2: a label defined on a line resolves to that line's number, wherever it is used. -/
def Obligations.LabelResolvesToItsLine : Prop :=
  ∀ (p : AsmParams) (lines : List (List Char)) (table : LabelTable), buildTable p 0 [] lines = .ok table →
    ∀ k (h : k < lines.length) label, (parseLine lines[k]).label = some label → lookupLabel table label = some k

/-- 30 B.2 and B.4: a label defined twice is the fatal error, wherever the two lines stand and whatever is wrong with
other lines, for a source that is within `MAXLINE` and `MAXLABELS`. That it comes before the error of an unterminated
last line, which the spec puts in no pass, is the model's choice (log 4). -/
def Obligations.DuplicateLabelIsFatal : Prop :=
  ∀ (p : AsmParams) (source : List Char) (j k : Nat) (hk : k < (splitLines [] source).1.length) (hj : j < k)
    (label : List Char),
    (∀ line ∈ (splitLines [] source).1, line.length ≤ p.maxLine) → (splitLines [] source).1.length ≤ p.maxLabels →
    (parseLine ((splitLines [] source).1[j]'(Nat.lt_trans hj hk))).label = some label →
    (parseLine (splitLines [] source).1[k]).label = some label →
    ∃ l, assemble p source = .error (.duplicateLabel l)

/-- 30 B.3: a numeric offset of `lw`, `sw` and `beq`, with every pair of registers, assembles exactly when it is in
`-32768 .. 32767`, to the instruction with that offset, and is `ArgOverflow` otherwise: for the statement in decimal, and
for every line whose operands are numeric tokens (D20) of these values. -/
def Obligations.NumericOffsetRange : Prop :=
  ∀ (table : LabelTable) (addr : Nat) (a b : RegNum) (v : Int) (m : List Char)
    (mk : RegNum → RegNum → OffsetField → Instr) (line : List Char),
    (m, mk) ∈ [("lw".toList, Instr.lw), ("sw".toList, Instr.sw), ("beq".toList, Instr.beq)] →
    (line = ' ' :: m ++ ' ' :: natText a.toNat ++ ' ' :: natText b.toNat ++ ' ' :: intText v ∨
      ((parseLine line).mnemonic = m ∧ ∃ ta tb tc, (parseLine line).args = [ta, tb, tc] ∧
        parseInt ta = some (a.toNat : Int) ∧ parseInt tb = some (b.toNat : Int) ∧ parseInt tc = some v)) →
    (-32768 ≤ v ∧ v ≤ 32767 →
      assembleLine table addr line = .ok (.instr (encode (mk a b (BitVec.ofInt 16 v))))) ∧
    (v < -32768 ∨ 32767 < v → assembleLine table addr line = .error .argOverflow)

/-- 30 B.3 (D19): a `.fill` of a number that fits a cell as a signed number gives the cell `v mod 2^32`; any other is
`ArgOverflow`, and a missing operand `NotEnoughArguments`. -/
def Obligations.FillGivesValueModulo : Prop :=
  ∀ (table : LabelTable) (addr : Nat) (v : Int),
    (-(2 ^ 31) ≤ v ∧ v ≤ 2 ^ 31 - 1 →
      assembleLine table addr (" .fill ".toList ++ intText v) = .ok (.fill v) ∧
      ((MachineWord.fill v).cell.toNat : Int) = v % 2 ^ 32) ∧
    (v < -(2 ^ 31) ∨ 2 ^ 31 - 1 < v → assembleLine table addr (" .fill ".toList ++ intText v) = .error .argOverflow) ∧
    assembleLine table addr " .fill".toList = .error .notEnoughArguments
end

