-- ==== Sys2Proof/Laws/Decode.lean ====
section
/-! SUPPORT. The opcode map is a bijection, and each constructor is decoded from its opcode. -/

namespace Sys2Proof

/-- No bit pattern falls through to a neighbour: the last arm of the map takes opcode 7 alone (30 R56, R60). -/
@[simp] theorem Laws.opcode_bits_ofBits : ∀ b : BitVec 3, (Opcode.ofBits b).bits = b := by decide

@[simp] theorem Laws.opcode_ofBits_bits : ∀ o : Opcode, Opcode.ofBits o.bits = o := by
  intro o
  cases o <;> decide

/-- The decoder never changes the operation the opcode names. -/
theorem Laws.decode_opcode (w : Word) : (decode w).opcode = Opcode.ofBits (opcodeField w) := by
  unfold decode
  cases Opcode.ofBits (opcodeField w) <;> rfl

end Sys2Proof
end

