-- ==== Sys2Proof/Laws/Memory.lean ====
section
/-! SUPPORT. The laws of memory: a read after a write, and that every operation keeps the canonical form. -/

namespace Sys2Proof.Machine

theorem cellsAt_cellsErase (cells : List (Nat × Word)) (a b : Nat) :
    cellsAt (cellsErase a cells) b = if b = a then 0 else cellsAt cells b := by
  induction cells with
  | nil => simp [cellsErase, cellsAt]
  | cons c rest ih =>
    obtain ⟨k, v⟩ := c
    simp only [cellsErase, List.filter_cons] at ih ⊢
    by_cases hka : k = a
    · subst hka
      simp only [ne_eq, not_true_eq_false, decide_false, Bool.false_eq_true, if_false, ih, cellsAt]
      by_cases hb : b = k
      · simp [hb]
      · simp [hb, Ne.symm hb]
    · simp only [ne_eq, hka, not_false_eq_true, decide_true, if_true, cellsAt, ih]
      by_cases hkb : k = b
      · subst hkb
        simp [hka]
      · simp [hkb]

theorem cellsAt_cellsInsert (cells : List (Nat × Word)) (a b : Nat) (v : Word)
    (h : ∀ c ∈ cells, c.1 ≠ a) : cellsAt (cellsInsert a v cells) b = if b = a then v else cellsAt cells b := by
  induction cells with
  | nil => simp [cellsInsert, cellsAt, eq_comm]
  | cons c rest ih =>
    obtain ⟨k, w⟩ := c
    have hk : k ≠ a := h (k, w) (by simp)
    have hrest := ih (fun c hc => h c (by simp [hc]))
    simp only [cellsInsert]
    split
    · simp [cellsAt, eq_comm]
    · simp only [cellsAt, hrest]
      by_cases hkb : k = b
      · subst hkb
        simp [hk]
      · simp [hkb]

theorem not_mem_cellsErase (cells : List (Nat × Word)) (a : Nat) : ∀ c ∈ cellsErase a cells, c.1 ≠ a := by
  intro c hc
  simpa using (List.mem_filter.mp hc).2

/-- A read after a write: the value written at that address, the old cell everywhere else (20 R35). It holds of every
memory, canonical or not. -/
@[simp] theorem Memory.cell_setCell (m : Memory) (a b : Nat) (v : Word) :
    (m.setCell a v).cell b = if b = a then v else m.cell b := by
  simp only [Memory.cell, Memory.setCell]
  split
  · next hv => rw [cellsAt_cellsErase, hv]
  · rw [cellsAt_cellsInsert _ _ _ _ (not_mem_cellsErase _ _), cellsAt_cellsErase]
    by_cases h : b = a <;> simp [h]

@[simp] theorem Memory.words_setCell (m : Memory) (a : Nat) (v : Word) : (m.setCell a v).words = m.words := rfl

@[simp] theorem Memory.valid_setCell (m : Memory) (a : Nat) (v b : Word) : (m.setCell a v).valid b = m.valid b := rfl

theorem mem_cellsInsert {cells : List (Nat × Word)} {a : Nat} {v : Word} {c : Nat × Word}
    (h : c ∈ cellsInsert a v cells) : c = (a, v) ∨ c ∈ cells := by
  induction cells with
  | nil => simpa [cellsInsert] using h
  | cons d rest ih =>
    simp only [cellsInsert] at h
    split at h
    · simpa using h
    · rcases List.mem_cons.mp h with h | h
      · simp [h]
      · rcases ih h with h | h <;> simp [h]

theorem cellsInsert_sorted {cells : List (Nat × Word)} {a : Nat} {v : Word}
    (hs : cells.Pairwise (fun c d => c.1 < d.1)) (ha : ∀ c ∈ cells, c.1 ≠ a) :
    (cellsInsert a v cells).Pairwise (fun c d => c.1 < d.1) := by
  induction cells with
  | nil => simp [cellsInsert]
  | cons c rest ih =>
    obtain ⟨k, w⟩ := c
    have hk : k ≠ a := ha (k, w) (by simp)
    rw [List.pairwise_cons] at hs
    simp only [cellsInsert]
    split
    · next hlt =>
      refine List.pairwise_cons.mpr ⟨?_, List.pairwise_cons.mpr hs⟩
      intro d hd
      rcases List.mem_cons.mp hd with rfl | hd
      · exact hlt
      · exact Nat.lt_trans hlt (hs.1 d hd)
    · next hlt =>
      refine List.pairwise_cons.mpr ⟨?_, ih hs.2 (fun d hd => ha d (by simp [hd]))⟩
      intro d hd
      rcases mem_cellsInsert hd with rfl | hd
      · exact Nat.lt_of_le_of_ne (Nat.not_lt.mp hlt) hk
      · exact hs.1 d hd

/-- A write inside the array keeps the canonical form. -/
theorem Memory.wf_setCell {m : Memory} {a : Nat} (h : m.wf) (ha : a < m.words) (v : Word) : (m.setCell a v).wf := by
  obtain ⟨hs, hc⟩ := h
  have herase : (cellsErase a m.cells).Pairwise (fun c d => c.1 < d.1) := hs.filter _
  have hmem : ∀ c ∈ cellsErase a m.cells, c.2 ≠ 0 ∧ c.1 < m.words := fun c h => hc c (List.mem_filter.mp h).1
  simp only [Memory.wf, Memory.setCell]
  split
  · exact ⟨herase, hmem⟩
  · next hv =>
    refine ⟨cellsInsert_sorted herase (not_mem_cellsErase _ _), fun c h => ?_⟩
    rcases mem_cellsInsert h with rfl | h
    · exact ⟨hv, ha⟩
    · exact hmem c h

theorem mem_imageCells {image : List Word} {i : Nat} {c : Nat × Word} (h : c ∈ imageCells i image) :
    c.2 ≠ 0 ∧ i ≤ c.1 ∧ c.1 < i + image.length := by
  induction image generalizing i with
  | nil => simp [imageCells] at h
  | cons w rest ih =>
    have tail (h : c ∈ imageCells (i + 1) rest) : c.2 ≠ 0 ∧ i ≤ c.1 ∧ c.1 < i + (rest.length + 1) :=
      ⟨(ih h).1, by have := (ih h).2; omega, by have := (ih h).2; omega⟩
    simp only [imageCells] at h
    split at h
    · exact tail h
    · next hw =>
      rcases List.mem_cons.mp h with rfl | h
      · exact ⟨hw, Nat.le_refl _, Nat.lt_add_of_pos_right (Nat.succ_pos _)⟩
      · exact tail h

theorem imageCells_sorted (image : List Word) (i : Nat) : (imageCells i image).Pairwise (fun c d => c.1 < d.1) := by
  induction image generalizing i with
  | nil => simp [imageCells]
  | cons w rest ih =>
    simp only [imageCells]
    split
    · exact ih _
    · refine List.pairwise_cons.mpr ⟨fun c h => ?_, ih _⟩
      have := (mem_imageCells h).2.1
      simp only
      omega

/-- Loading an image that fits gives the canonical form. -/
theorem Memory.wf_ofImage {memWords : Nat} {image : List Word} (h : image.length ≤ memWords) :
    (Memory.ofImage memWords image).wf := by
  refine ⟨imageCells_sorted _ _, fun c hc => ?_⟩
  have := mem_imageCells hc
  exact ⟨this.1, by simp only [Memory.ofImage]; omega⟩

/-- Memory as reset leaves it has the canonical form. -/
theorem reset_mem_wf : State.reset.mem.wf := by decide

end Sys2Proof.Machine
end

