-- ==== Sys2Proof/Laws/State.lean ====
section
/-! SUPPORT. One lemma per field per update of State, so that no later proof unfolds a record update. -/

namespace Sys2Proof.Machine

@[simp] theorem State.x_setX (s : State) (r q : RegNum) (v : Word) :
    (s.setX r v).x q = if q = r then v else s.x q := by
  by_cases h : q = r
  · subst h
    simp [State.x, State.setX]
  · have hn : ¬ r.toNat = q.toNat := fun e => h (BitVec.eq_of_toNat_eq e.symm)
    simp only [State.x, State.setX]
    rw [Vector.getElem_set_ne _ _ hn, if_neg h]

@[simp] theorem State.setX_pc (s : State) (r : RegNum) (v : Word) : (s.setX r v).pc = s.pc := rfl
@[simp] theorem State.setX_mem (s : State) (r : RegNum) (v : Word) : (s.setX r v).mem = s.mem := rfl
@[simp] theorem State.setX_run (s : State) (r : RegNum) (v : Word) : (s.setX r v).run = s.run := rfl
@[simp] theorem State.setX_fault (s : State) (r : RegNum) (v : Word) : (s.setX r v).fault = s.fault := rfl
@[simp] theorem State.setX_pc1 (s : State) (r : RegNum) (v : Word) : (s.setX r v).pc1 = s.pc1 := rfl

@[simp] theorem State.setPc_pc (s : State) (t : Word) : (s.setPc t).pc = t := rfl
@[simp] theorem State.setPc_x (s : State) (t : Word) (q : RegNum) : (s.setPc t).x q = s.x q := rfl
@[simp] theorem State.setPc_mem (s : State) (t : Word) : (s.setPc t).mem = s.mem := rfl
@[simp] theorem State.setPc_run (s : State) (t : Word) : (s.setPc t).run = s.run := rfl
@[simp] theorem State.setPc_fault (s : State) (t : Word) : (s.setPc t).fault = s.fault := rfl

@[simp] theorem State.advance_pc (s : State) : s.advance.pc = s.pc + 1 := rfl
@[simp] theorem State.advance_x (s : State) (q : RegNum) : s.advance.x q = s.x q := rfl
@[simp] theorem State.advance_mem (s : State) : s.advance.mem = s.mem := rfl
@[simp] theorem State.advance_run (s : State) : s.advance.run = s.run := rfl
@[simp] theorem State.advance_fault (s : State) : s.advance.fault = s.fault := rfl

@[simp] theorem State.setRun_pc (s : State) (r : RunState) : (s.setRun r).pc = s.pc := rfl
@[simp] theorem State.setRun_x (s : State) (r : RunState) (q : RegNum) : (s.setRun r).x q = s.x q := rfl
@[simp] theorem State.setRun_mem (s : State) (r : RunState) : (s.setRun r).mem = s.mem := rfl
@[simp] theorem State.setRun_run (s : State) (r : RunState) : (s.setRun r).run = r := rfl
@[simp] theorem State.setRun_fault (s : State) (r : RunState) : (s.setRun r).fault = s.fault := rfl

/-- Two states are equal when their fields are, the registers compared one by one. -/
theorem State.ext_x {s t : State} (hpc : s.pc = t.pc) (hx : ∀ r, s.x r = t.x r) (hmem : s.mem = t.mem)
    (hrun : s.run = t.run) (hfault : s.fault = t.fault) : s = t := by
  have hregs : s.regs = t.regs := by
    apply Vector.ext
    intro i hi
    have h := hx (BitVec.ofNat 3 i)
    have e : (BitVec.ofNat 3 i).toNat = i := by
      rw [BitVec.toNat_ofNat]
      exact Nat.mod_eq_of_lt hi
    simpa only [State.x, e] using h
  cases s
  cases t
  simp_all

section AddressFault

variable (k : FaultKind) (a : Word) (s : State)

@[simp] theorem raiseAddressFault_pc : (raiseAddressFault k a s).pc = s.pc := rfl
@[simp] theorem raiseAddressFault_x (q : RegNum) : (raiseAddressFault k a s).x q = s.x q := rfl
@[simp] theorem raiseAddressFault_mem : (raiseAddressFault k a s).mem = s.mem := rfl
@[simp] theorem raiseAddressFault_run : (raiseAddressFault k a s).run = .faulted := rfl
@[simp] theorem raiseAddressFault_fault : (raiseAddressFault k a s).fault = ⟨k, s.pc, a⟩ := rfl

end AddressFault

section MemoryReplaced

variable (s : State) (m : Memory)

@[simp] theorem State.withMem_pc : ({ s with mem := m } : State).pc = s.pc := rfl
@[simp] theorem State.withMem_x (q : RegNum) : ({ s with mem := m } : State).x q = s.x q := rfl
@[simp] theorem State.withMem_mem : ({ s with mem := m } : State).mem = m := rfl
@[simp] theorem State.withMem_run : ({ s with mem := m } : State).run = s.run := rfl
@[simp] theorem State.withMem_fault : ({ s with mem := m } : State).fault = s.fault := rfl

end MemoryReplaced

end Sys2Proof.Machine
end

