-- ==== Sys2Proof/Laws/Ops.lean ====
section
/-! SUPPORT. One lemma for each shared operation that says everything it can do. -/

namespace Sys2Proof.Machine

theorem Memory.valid_iff (m : Memory) (a : Word) : m.valid a = true ↔ a.toNat < m.words := by
  simp [Memory.valid]

/-- All that a read can answer (20 R38). -/
theorem memRead_cases (s : State) (a : Word) :
    (s.mem.valid a = true ∧ s.memRead a = some (s.mem.cell a.toNat)) ∨
    (s.mem.valid a = false ∧ s.memRead a = none) := by
  cases h : s.mem.valid a <;> simp [State.memRead, h]

/-- All that a write can answer (20 R39). -/
theorem memWrite_cases (s : State) (a v : Word) :
    (s.mem.valid a = true ∧ s.memWrite a v = some { s with mem := s.mem.setCell a.toNat v }) ∨
    (s.mem.valid a = false ∧ s.memWrite a v = none) := by
  cases h : s.mem.valid a <;> simp [State.memWrite, h]

theorem takesStep_iff (s : State) : s.takesStep = true ↔ s.run = .running := by
  simp [State.takesStep]

/-- All that a fetch can answer (40 R91). -/
theorem fetch_cases (s : State) :
    (s.mem.valid s.pc = true ∧ fetch s = some (s.mem.cell s.pc.toNat)) ∨
    (s.mem.valid s.pc = false ∧ fetch s = none) := memRead_cases s s.pc

/-- The placed word is what the next fetch reads, when `pc` is a valid address. -/
theorem fetch_placeAtPc (s : State) (w : Word) (h : s.mem.valid s.pc = true) : fetch (placeAtPc s w) = some w := by
  simp [placeAtPc, State.memWrite, h, fetch, State.memRead]

end Sys2Proof.Machine
end

