-- ==== Sys2Proof/Laws/Exec.lean ====
section
/-! SUPPORT. What each meaning and the step can answer, said once: later proofs cite these and unfold no meaning. -/

namespace Sys2Proof.Machine

variable {s t : State} {a b d : RegNum} {off : OffsetField}

theorem exec_add (a b d : RegNum) (s : State) :
    exec (.add a b d) s = .next (s.setX d (s.x a + s.x b)).advance := rfl

theorem exec_nor (a b d : RegNum) (s : State) :
    exec (.nor a b d) s = .next (s.setX d (~~~(s.x a ||| s.x b))).advance := rfl

theorem exec_lw_valid (h : s.mem.valid (effectiveAddress (s.x a) off) = true) :
    exec (.lw a b off) s = .next (s.setX b (s.mem.cell (effectiveAddress (s.x a) off).toNat)).advance := by
  simp [exec, execLw, State.memRead, h]

theorem exec_lw_invalid (h : s.mem.valid (effectiveAddress (s.x a) off) = false) :
    exec (.lw a b off) s = .next (raiseAddressFault .load (effectiveAddress (s.x a) off) s) := by
  simp [exec, execLw, State.memRead, h]

theorem exec_sw_valid (h : s.mem.valid (effectiveAddress (s.x a) off) = true) :
    exec (.sw a b off) s =
      .next { s with mem := s.mem.setCell (effectiveAddress (s.x a) off).toNat (s.x b) }.advance := by
  simp [exec, execSw, State.memWrite, h]

theorem exec_sw_invalid (h : s.mem.valid (effectiveAddress (s.x a) off) = false) :
    exec (.sw a b off) s = .next (raiseAddressFault .store (effectiveAddress (s.x a) off) s) := by
  simp [exec, execSw, State.memWrite, h]

theorem exec_beq (a b : RegNum) (off : OffsetField) (s : State) :
    exec (.beq a b off) s = .next (s.setPc (if s.x a = s.x b then branchTarget s.pc off else s.pc + 1)) := by
  simp [exec, execBeq, equalWords, State.pc1]

theorem exec_jalr (a b : RegNum) (s : State) :
    exec (.jalr a b) s = .next ((s.setX b (s.pc + 1)).setPc (if a = b then s.pc + 1 else s.x a)) := by
  simp [exec, execJalr, State.pc1]

theorem exec_halt (s : State) : exec .halt s = .next (s.advance.setRun .halted) := rfl

theorem exec_noop (s : State) : exec .noop s = .next s.advance := rfl

/-- The step as one equation over the instruction's effect (40 R101). -/
theorem step_eq (s : State) :
    step s =
      if s.run = .running then
        if s.mem.valid s.pc = true then exec (decode (s.mem.cell s.pc.toNat)) s else .next (fetchFault s)
      else .next s := by
  by_cases hr : s.run = .running
  · cases hv : s.mem.valid s.pc <;> simp [step, (takesStep_iff s).mpr hr, hr, fetch, State.memRead, hv]
  · have : s.takesStep = false := by simp [State.takesStep, hr]
    simp [step, this, hr, noStep]

/-- Everything a step can do (40 R101). -/
theorem step_cases (h : step s = .next t) :
    (s.run ≠ .running ∧ t = s) ∨
    (s.run = .running ∧ s.mem.valid s.pc = false ∧ t = fetchFault s) ∨
    (s.run = .running ∧ s.mem.valid s.pc = true ∧ exec (decode (s.mem.cell s.pc.toNat)) s = .next t) := by
  rw [step_eq] at h
  split at h
  · next hr =>
    split at h
    · next hv => exact .inr (.inr ⟨hr, hv, h⟩)
    · next hv => exact .inr (.inl ⟨hr, by simpa using hv, (Host.Outcome.next.inj h).symm⟩)
  · next hr => exact .inl ⟨hr, (Host.Outcome.next.inj h).symm⟩

end Sys2Proof.Machine
end

