-- ==== Sys2Proof/Laws/WellFormed.lean ====
section
/-! SUPPORT. Each well-formedness check as the arithmetic it decides. -/

namespace Sys2Proof

theorem regNumOk_iff (v : Int) : regNumOk v = true ↔ 0 ≤ v ∧ v ≤ 7 := by
  simp only [regNumOk, Bool.and_eq_true, decide_eq_true_eq]

theorem offsetOk_iff (v : Int) : offsetOk v = true ↔ -32768 ≤ v ∧ v ≤ 32767 := by
  simp only [offsetOk, Bool.and_eq_true, decide_eq_true_eq]

theorem cellValueOk_iff (v : Int) : cellValueOk v = true ↔ -2147483648 ≤ v ∧ v ≤ 2147483647 := by
  simp only [cellValueOk, Bool.and_eq_true, decide_eq_true_eq]
  omega

theorem memWordsOk_iff (n : Nat) : memWordsOk n = true ↔ 1 ≤ n ∧ n ≤ 2147450880 := by
  simp only [memWordsOk, Bool.and_eq_true, decide_eq_true_eq]
  exact Iff.rfl

theorem imageOk_iff (n : Nat) (image : List Word) : imageOk n image = true ↔ image.length ≤ n := by
  simp only [imageOk, decide_eq_true_eq]

end Sys2Proof
end

