-- ==== Sys2Proof/Laws/Outcome.lean ====
section
/-! SUPPORT. The three ways an instruction can end, for proofs that do not care which instruction it is. -/

namespace Sys2Proof.Machine

variable {i : Instr} {s t : State}

theorem State.inv_iff (s : State) :
    s.inv = true ↔ s.mem.wf ∧ memWordsOk s.mem.words = true ∧ recordFits s = true ∧ haltFits s = true := by
  simp only [State.inv, Bool.and_eq_true, decide_eq_true_eq, and_assoc]

/-- The instruction makes no data access: it changes no cell and no record, and `run` only if it is HALT. -/
def EndsWithoutAccess (i : Instr) (s t : State) : Prop :=
  dataAddress s i = none ∧ t.mem = s.mem ∧ t.fault = s.fault ∧ (i = .halt → t.run = .halted) ∧
    (i ≠ .halt → t.run = s.run) ∧ (ownsPc i.opcode = false → t.pc = s.pc + 1)

/-- The instruction makes its data access at a valid address: memory keeps all cells but that one. -/
def EndsWithAccess (i : Instr) (s t : State) : Prop :=
  ∃ k ea, dataAddress s i = some (k, ea) ∧ s.mem.valid ea = true ∧ t.run = s.run ∧ t.fault = s.fault ∧
    t.pc = s.pc + 1 ∧ (t.mem = s.mem ∨ ∃ v, t.mem = s.mem.setCell ea.toNat v) ∧ i ≠ .halt

/-- The instruction faults at its data address. -/
def EndsInFault (i : Instr) (s t : State) : Prop :=
  ∃ k ea, k ≠ .none ∧ dataAddress s i = some (k, ea) ∧ s.mem.valid ea = false ∧ t = raiseAddressFault k ea s ∧ i ≠ .halt

/-- Everything an instruction can do to `pc`, memory, `run` and the record. -/
theorem exec_cases (h : exec i s = .next t) : EndsWithoutAccess i s t ∨ EndsWithAccess i s t ∨ EndsInFault i s t := by
  cases i with
  | add a b d =>
    cases h
    exact .inl ⟨rfl, rfl, rfl, nofun, fun _ => rfl, fun _ => rfl⟩
  | nor a b d =>
    cases h
    exact .inl ⟨rfl, rfl, rfl, nofun, fun _ => rfl, fun _ => rfl⟩
  | lw a b off =>
    cases hv : s.mem.valid (effectiveAddress (s.x a) off) with
    | true =>
      rw [exec_lw_valid hv] at h
      cases h
      exact .inr (.inl ⟨_, _, rfl, hv, rfl, rfl, rfl, .inl rfl, nofun⟩)
    | false =>
      rw [exec_lw_invalid hv] at h
      cases h
      exact .inr (.inr ⟨.load, _, nofun, rfl, hv, rfl, nofun⟩)
  | sw a b off =>
    cases hv : s.mem.valid (effectiveAddress (s.x a) off) with
    | true =>
      rw [exec_sw_valid hv] at h
      cases h
      exact .inr (.inl ⟨_, _, rfl, hv, rfl, rfl, rfl, .inr ⟨_, rfl⟩, nofun⟩)
    | false =>
      rw [exec_sw_invalid hv] at h
      cases h
      exact .inr (.inr ⟨.store, _, nofun, rfl, hv, rfl, nofun⟩)
  | beq a b off =>
    cases h
    exact .inl ⟨rfl, rfl, rfl, nofun, fun _ => rfl, nofun⟩
  | jalr a b =>
    cases h
    exact .inl ⟨rfl, rfl, rfl, nofun, fun _ => rfl, nofun⟩
  | halt =>
    cases h
    exact .inl ⟨rfl, rfl, rfl, fun _ => rfl, fun h => absurd rfl h, fun _ => rfl⟩
  | noop =>
    cases h
    exact .inl ⟨rfl, rfl, rfl, nofun, fun _ => rfl, fun _ => rfl⟩

end Sys2Proof.Machine
end

