-- ==== Sys2Proof/Laws/PerInstr.lean ====
section
/-! SUPPORT. Statements about each instruction as syntax, one lemma per constructor. -/

namespace Sys2Proof.Laws.Canonical

/-- The canonical word of an instruction has its seven unused high bits zero, so it is below `2^25`, and carries the
opcode of its operation (30 R59). -/
def Statement (i : Instr) : Prop := bitField (encode i) 25 7 = 0#7 ∧ opcodeField (encode i) = i.opcode.bits

theorem highBits_encodeR (op a b d : BitVec 3) : bitField (encodeR op a b d) 25 7 = 0#7 := by
  apply BitVec.eq_of_getLsbD_eq
  intro i hi
  interval_cases i <;> simp [bitField, encodeR, fieldAt]

theorem opcode_encodeR (op a b d : BitVec 3) : opcodeField (encodeR op a b d) = op := by
  apply BitVec.eq_of_getLsbD_eq
  intro i hi
  interval_cases i <;> simp [bitField, opcodeField, encodeR, fieldAt]

theorem highBits_encodeI (op a b : BitVec 3) (off : OffsetField) : bitField (encodeI op a b off) 25 7 = 0#7 := by
  apply BitVec.eq_of_getLsbD_eq
  intro i hi
  interval_cases i <;> simp [bitField, encodeI, fieldAt]

theorem opcode_encodeI (op a b : BitVec 3) (off : OffsetField) : opcodeField (encodeI op a b off) = op := by
  apply BitVec.eq_of_getLsbD_eq
  intro i hi
  interval_cases i <;> simp [bitField, opcodeField, encodeI, fieldAt]

theorem highBits_encodeJ (op a b : BitVec 3) : bitField (encodeJ op a b) 25 7 = 0#7 := by
  apply BitVec.eq_of_getLsbD_eq
  intro i hi
  interval_cases i <;> simp [bitField, encodeJ, fieldAt]

theorem opcode_encodeJ (op a b : BitVec 3) : opcodeField (encodeJ op a b) = op := by
  apply BitVec.eq_of_getLsbD_eq
  intro i hi
  interval_cases i <;> simp [bitField, opcodeField, encodeJ, fieldAt]

theorem add (a b d : RegNum) : Statement (.add a b d) := ⟨highBits_encodeR _ _ _ _, opcode_encodeR _ _ _ _⟩

theorem nor (a b d : RegNum) : Statement (.nor a b d) := ⟨highBits_encodeR _ _ _ _, opcode_encodeR _ _ _ _⟩

theorem lw (a b : RegNum) (off : OffsetField) : Statement (.lw a b off) :=
  ⟨highBits_encodeI _ _ _ _, opcode_encodeI _ _ _ _⟩

theorem sw (a b : RegNum) (off : OffsetField) : Statement (.sw a b off) :=
  ⟨highBits_encodeI _ _ _ _, opcode_encodeI _ _ _ _⟩

theorem beq (a b : RegNum) (off : OffsetField) : Statement (.beq a b off) :=
  ⟨highBits_encodeI _ _ _ _, opcode_encodeI _ _ _ _⟩

theorem jalr (a b : RegNum) : Statement (.jalr a b) := ⟨highBits_encodeJ _ _ _, opcode_encodeJ _ _ _⟩

theorem halt : Statement .halt := by
  constructor <;> decide

theorem noop : Statement .noop := by
  constructor <;> decide

end Sys2Proof.Laws.Canonical
end

