-- ==== Sys2Proof/Tests/Slice0.lean ====
section
/-! SUPPORT. Small tests whose expected results are the vectors of spec/95_test_vectors.md, and the smoke tests of the
well-formedness checks. -/

namespace Sys2Proof.Machine.Tests

/-! ### Well-formedness: an ill-formed term for each check, which the check refuses -/

theorem test_regNumOk_refuses : regNumOk 8 = false ∧ regNumOk (-1) = false ∧ regNumOk 7 = true := by decide

/-- The boundary of 95 S4. -/
theorem test_offsetOk_refuses :
    offsetOk 32768 = false ∧ offsetOk (-32769) = false ∧ offsetOk 32767 = true ∧ offsetOk (-32768) = true := by decide

theorem test_cellValueOk_refuses :
    cellValueOk 2147483648 = false ∧ cellValueOk (-2147483649) = false ∧ cellValueOk (-1) = true := by decide

/-- The bounds of 00 R4. -/
theorem test_memWordsOk_refuses :
    memWordsOk 0 = false ∧ memWordsOk 2147450881 = false ∧ memWordsOk 2147450880 = true := by decide

theorem test_imageOk_refuses : imageOk 1 [0, 0] = false ∧ imageOk 2 [0, 0] = true := by decide

/-! ### Decoding: words of 95 section 2.1, written out bit by bit as 7, 3, 3, 3 bits and the rest -/

/-- 95 vector A1: 0000000 000 001 010 0000000000000 011. -/
theorem test_decode_add : decode 0b0000000_000_001_010_0000000000000_011 = .add 1 2 3 := by decide

/-- 95 2.1: bits 31:25 set are ignored. -/
theorem test_decode_nor : decode 0b1111111_001_000_000_0000000000000_111 = .nor 0 0 7 := by decide

/-- 95 2.1: 12345678 is `lw 7 4 24910`. -/
theorem test_decode_lw : decode 0b0000000_010_111_100_0110000101001110 = .lw 7 4 24910 := by decide

/-- 95 vector S1: `sw 0 2 12`. -/
theorem test_decode_sw : decode 0b0000000_011_000_010_0000000000001100 = .sw 0 2 12 := by decide

/-- 95 2.1: 16842749 is `beq 0 0 -3`. -/
theorem test_decode_beq : decode 0b0000000_100_000_000_1111111111111101 = .beq 0 0 (-3) := by decide

/-- 95 vector J6: `jalr 1 2` with the ignored bits 15:0 set. -/
theorem test_decode_jalr : decode 0b0000000_101_001_010_1111111111111111 = .jalr 1 2 := by decide

/-- 95 2.1: HALT with every ignored low bit set. -/
theorem test_decode_halt : decode 0b0000000_110_1111111111111111111111 = .halt := by decide

/-- 95 2.1: `.fill -1` executed is a NOOP. -/
theorem test_decode_noop : decode 0xFFFFFFFF = .noop := by decide

/-- 44 R140, R141, 41 R110, 42 R121: the canonical words, in decimal. -/
theorem test_encode :
    encode .halt = 25165824 ∧ encode .noop = 29360128 ∧ encode (.add 1 2 1) = 655361 ∧ encode (.lw 0 1 7) = 8454151 := by
  decide

/-! ### One step each: a state with `MEMWORDS = 65536`, the registers and cells given, all else 0 -/

/-- A running state of the tests. -/
def at_ (pc : Word) (regs : List (RegNum × Word)) (cells : List (Nat × Word)) : State :=
  regs.foldl (fun s r => s.setX r.1 r.2) { State.reset with pc := pc, mem := ⟨65536, cells⟩ }

/-- One step of the word `w` placed at `pc`. -/
def after (w : Nat) (s : State) : State := stepState (s.withFetchWord 32 w)

/-- 95 A3: the carry out is discarded. -/
theorem test_add_wraps : (after 655363 (at_ 10 [(1, 0xFFFFFFFF), (2, 1)] [])).x 3 = 0 := by decide

/-- 95 A6: register 0 is writable. -/
theorem test_add_register_zero :
    (after 655360 (at_ 10 [(1, 3), (2, 4)] [])).x 0 = 7 ∧ (after 655360 (at_ 10 [] [])).pc = 11 := by decide

/-- 95 N4: bit by bit. -/
theorem test_nor_bits : (after 4849667 (at_ 0 [(1, 0xF0F0F0F0), (2, 0x0FF00FF0)] [])).x 3 = 0x000F000F := by decide

/-- 95 N3: bitwise NOT in place. -/
theorem test_nor_in_place : (after 4784129 (at_ 0 [(1, 0xFFFFFFFF)] [])).x 1 = 0 := by decide

/-- 95 L4: a negative base, the sum in range. -/
theorem test_lw_negative_base : (after 9043973 (at_ 3 [(1, 0xFFFFFFFF)] [(4, 123)])).x 2 = 0x7B := by decide

/-- 95 L11: the sum that wraps to `2^31 - 2^15` is not a valid address. -/
theorem test_lw_faults :
    (after 9076736 (at_ 3 [(1, 0x80000000)] [])).faultPort = (2, 3, 0x7FFF8000) ∧
    (after 9076736 (at_ 3 [(1, 0x80000000)] [])).pc = 3 := by decide

/-- 95 S7: a base outside memory, the sum inside. -/
theorem test_sw_sum_inside :
    (after 13303806 (at_ 3 [(1, 65537), (2, 7)] [])).mem.cell 65535 = 7 := by decide

/-- 95 S6: one past the end. -/
theorem test_sw_faults :
    (after 13238273 (at_ 3 [(1, 65535), (2, 7)] [])).runPort = 2 ∧
    (after 13238273 (at_ 3 [(1, 65535), (2, 7)] [])).faultPort = (3, 3, 0x00010000) := by decide

/-- 95 B3 and B6: backward, and to an address outside memory, which is no fault of this step. -/
theorem test_beq_taken :
    (after 16842749 (at_ 4 [] [])).pc = 2 ∧ (after 16842747 (at_ 2 [] [])).pc = 0xFFFFFFFE ∧
    (after 16842747 (at_ 2 [] [])).run = .running := by decide

/-- 95 B9: all 32 bits are compared. -/
theorem test_beq_not_taken : (after 17432583 (at_ 100 [(1, 0x80000000)] [])).pc = 101 := by decide

/-- 95 J1, the source's own example. -/
theorem test_jalr :
    (after 21626880 (at_ 5 [(1, 10)] [])).pc = 10 ∧ (after 21626880 (at_ 5 [(1, 10)] [])).x 2 = 6 := by decide

/-- 95 J3: with `regA = regB` the link is written first and the jump goes to `pc + 1` (D7). -/
theorem test_jalr_same :
    (after 22740992 (at_ 2 [(3, 4)] [])).pc = 3 ∧ (after 22740992 (at_ 2 [(3, 4)] [])).x 3 = 3 := by decide

/-- 95 H3: HALT in the last cell is no fault; `pc` is incremented once. -/
theorem test_halt :
    (after 25165824 (at_ 65535 [] [])).run = .halted ∧ (after 25165824 (at_ 65535 [] [])).pc = 65536 := by decide

/-- 95 O2. -/
theorem test_noop :
    (after 0xFFFFFFFF (at_ 2 [(5, 5)] [])).pc = 3 ∧ (after 0xFFFFFFFF (at_ 2 [(5, 5)] [])).x 5 = 5 := by decide

/-- 95 F1: the fetch past the last cell. -/
theorem test_fetch_fault :
    (stepState (at_ 65536 [] [])).faultPort = (1, 0x00010000, 0x00010000) ∧
    (stepState (at_ 65536 [] [])).pc = 65536 := by decide

/-- 95 H5 and F3: no step is taken. -/
theorem test_no_step :
    stepState ((at_ 3 [] []).setRun .halted) = (at_ 3 [] []).setRun .halted ∧
    stepOutcome ((at_ 3 [] []).setRun .faulted) = .noStep := by decide

/-- 95 S3: an SW overwrites its own cell with `halt`, and this step does not halt. -/
theorem test_sw_own_cell :
    (after 12648451 (at_ 3 [(1, 25165824)] [])).run = .running ∧
    (after 12648451 (at_ 3 [(1, 25165824)] [])).mem.cell 3 = 25165824 := by decide

/-! ### The toolchain (95 S1, S4, S5 and section 2.10) -/

/-- Wide enough for every test below. -/
def params : AsmParams := ⟨100, 100⟩

/-- The label table of 95 section 2.10. -/
def table : LabelTable := [("start".toList, 2), ("five".toList, 7)]

/-- 95 S1 with the label in column 0 (90 C6), and its four words. -/
theorem test_assemble_scenario :
    (assemble params "start add 0 0 1\n beq 0 1 end\n noop\nend halt\n".toList).toOption.map machineCodeText =
      some "1\n16842753\n29360128\n25165824".toList := by decide

/-- 95 2.10: a label, a backward branch, a number verbatim, a `.fill`. -/
theorem test_assemble_lines :
    assembleLine table 0 " lw 0 1 five".toList = .ok (.instr 8454151) ∧
    assembleLine table 4 " beq 0 0 start".toList = .ok (.instr 16842749) ∧
    assembleLine table 4 " beq 0 0 3".toList = .ok (.instr 16777219) ∧
    assembleLine table 0 " jalr 4 7 anything here".toList = .ok (.instr 23527424) ∧
    assembleLine table 0 " .fill -1".toList = .ok (.fill (-1)) := by decide

/-- 95 2.10: the errors, in the order of 30 R77. -/
theorem test_assemble_errors :
    assembleLine table 0 " add 1 2".toList = .error .notEnoughArguments ∧
    assembleLine table 0 " add 1 2 8".toList = .error (.invalidArgument 2) ∧
    assembleLine table 0 " lw five 1 0".toList = .error (.invalidArgument 0) ∧
    assembleLine table 0 " lw x 1 99999".toList = .error (.invalidArgument 0) ∧
    assembleLine table 0 " beq 0 1 99999".toList = .error .argOverflow ∧
    assembleLine table 0 " lw 0 1 nowhere".toList = .error (.undefinedLabel 2) ∧
    assembleLine table 0 " ADD 1 2 3".toList = .error .unrecognizedOpcode ∧
    assembleLine table 0 [] = .error .unrecognizedOpcode := by decide

/-- 95 S5: the duplicate is reported before the unknown mnemonic of an earlier line. -/
theorem test_duplicate_label :
    assemble params "a noop\n foo\na .fill 1\n".toList = .error (.duplicateLabel ['a']) := by decide

/-- 70 R174: two cells, the second from a signed line. -/
theorem test_load_file :
    parseImage "25165824\n-1".toList = .ok [25165824, 0xFFFFFFFF] ∧
    parseImage "1\n2147483648".toList = .error (.malformedMachineWord 1) ∧
    parseImage "1\n\n2".toList = .error (.malformedMachineWord 1) := by decide

/-! ### Witnesses: for each statement with hypotheses, values that meet them all, at the boundaries of its clauses -/

/-- IgnoredBitsDoNotMatter: `add 1 2 3` and the same with every ignored bit set (95 A8). -/
theorem witness_ignored_bits :
    (655363 : Word) &&& namedBits (decode 655363).opcode = 4262133755 &&& namedBits (decode 655363).opcode ∧
    decode 655363 = decode 4262133755 := by decide

/-- OpcodeSelectsFormat, and the decode clauses of ADD, NOR, HALT and NOOP: a word for each opcode. -/
theorem witness_opcodes :
    [0, 0x00400000, 0x00800000, 0x00C00000, 0x01000000, 0x01400000, 0x01800000, 0x01C00000].map
      (fun w : Word => w.extractLsb' 22 3) = [0, 1, 2, 3, 4, 5, 6, 7] := by decide

/-- OffsetIsSignExtended: the last field of each case. -/
theorem witness_offset :
    (0x7FFF#16).getLsbD 15 = false ∧ sext32 0x7FFF = 0x00007FFF ∧
    (0x8000#16).getLsbD 15 = true ∧ sext32 0x8000 = 0xFFFF8000 := by decide

/-- ResetLoadsImage: an image that fills memory; its first cell, and the first address above it. -/
theorem witness_reset_image :
    memWordsOk 2 = true ∧ ([5, 7] : List Word).length ≤ 2 ∧ (resetWith 2 [5, 7]).mem.cell 0 = 5 ∧
    (resetWith 2 [5, 7]).mem.cell 2 = 0 := by decide

/-- OversizedImageRefused: one word too many. -/
theorem witness_oversized : memWordsOk 1 = true ∧ 1 < ([0, 0] : List Word).length := by decide

/-- MachineCodeTextLoads: HALT, and `.fill` at both ends of its range. -/
theorem witness_code_text :
    ∀ w ∈ [MachineWord.instr 25165824, .fill (-2147483648), .fill 2147483647], cellValueOk w.value = true := by decide

/-- FirstMalformedLineRefused: the second of two lines. -/
theorem witness_malformed :
    1 < [['1'], ['x']].length ∧ [['1'], ['x']] ≠ [[]] ∧ (∀ line ∈ [['1'], ['x']], '\n' ∉ line) ∧
    imageLineCell [['1'], ['x']][1] = none ∧ imageLineCell [['1'], ['x']][0] ≠ none := by decide

/-- ResetRestartsAnyState: a halted state. -/
theorem witness_restart :
    (after 25165824 (at_ 3 [] [])).inv = true ∧ (after 25165824 (at_ 3 [] [])).run = .halted ∧
    ([] : List Word).length ≤ (after 25165824 (at_ 3 [] [])).mem.words := by decide

/-- LwLoadsOrFaults, SwStoresOrFaults, LoadAfterStore: the last valid address and the first that is not. -/
theorem witness_addresses :
    (at_ 3 [(1, 65535)] []).mem.valid (effectiveAddress ((at_ 3 [(1, 65535)] []).x 1) 0) = true ∧
    (at_ 3 [(1, 65535)] []).mem.valid (effectiveAddress ((at_ 3 [(1, 65535)] []).x 1) 1) = false := by decide

/-- BeqChangesOnlyPc and JalrLinksThenJumps: each clause. -/
theorem witness_branch :
    (at_ 1 [(1, 5)] []).x 0 ≠ (at_ 1 [(1, 5)] []).x 1 ∧ (at_ 1 [(1, 5)] []).x 0 = (at_ 1 [(1, 5)] []).x 2 ∧
    (1 : RegNum) ≠ 2 := by decide

/-- AddAgreesWithSignedReading: a completed ADD whose sum is the last in the signed range. -/
theorem witness_signed :
    exec (.add 1 2 3) (at_ 10 [(1, 0x7FFFFFFE), (2, 1)] []) =
      .next ((at_ 10 [(1, 0x7FFFFFFE), (2, 1)] []).setX 3 0x7FFFFFFF).advance ∧
    -(2 ^ 31) ≤ (0x7FFFFFFE#32).toInt + (1#32).toInt ∧ (0x7FFFFFFE#32).toInt + (1#32).toInt < 2 ^ 31 :=
  ⟨rfl, by decide, by decide⟩

/-- EffectiveAddressIsSignedSum: the largest capacity and the case its bound exists for (95 L11). -/
theorem witness_capacity :
    memWordsOk (⟨2147450880, []⟩ : Memory).words = true ∧
    (⟨2147450880, []⟩ : Memory).valid (effectiveAddress 0x80000000 0x8000) = false ∧
    (⟨2147450880, []⟩ : Memory).valid (effectiveAddress 0xFFFFFFFF 5) = true := by decide

/-- BranchOffsetRoundTrip: 95 S3, the branch of P2. -/
theorem witness_branch_offset :
    offsetOk ((2 : Int) - ((4 : Int) + 1)) = true ∧ lookupLabel table "start".toList = some 2 ∧
    parseInt "start".toList = none ∧ (parseLine " beq 0 0 start".toList).mnemonic = "beq".toList ∧
    (parseLine " beq 0 0 start".toList).args = [natText 0, natText 0, "start".toList] ∧
    (at_ 4 [] []).pc = BitVec.ofNat 32 4 ∧ (at_ 4 [] []).x 0 = (at_ 4 [] []).x 0 := by decide

/-- InstructionFrame, EveryStepAnswers and PcUpdatePolicy: a NOOP on a running core. -/
theorem witness_exec :
    exec .noop State.reset = .next State.reset.advance ∧ State.reset.run = .running ∧
    State.reset.advance.run ≠ .faulted ∧ ownsPc Instr.noop.opcode = false := ⟨rfl, rfl, by decide, rfl⟩

/-- ReadsOnlyNamedRegisters: two states that differ in a register JALR does not read. -/
theorem witness_reads :
    (at_ 5 [(1, 10)] []).run = .running ∧ (at_ 5 [(1, 10), (2, 9)] []).run = .running ∧
    (at_ 5 [(1, 10)] []).mem = (at_ 5 [(1, 10), (2, 9)] []).mem ∧
    (∀ r ∈ registersRead (.jalr 1 2), (at_ 5 [(1, 10)] []).x r = (at_ 5 [(1, 10), (2, 9)] []).x r) ∧
    (at_ 5 [(1, 10)] []).x 2 ≠ (at_ 5 [(1, 10), (2, 9)] []).x 2 := by decide

/-- FaultIsPrecise and FaultOnlyOutsideMemory: 95 L6. -/
theorem witness_fault :
    (at_ 3 [] [(3, 8585215)]).run = .running ∧ (stepState (at_ 3 [] [(3, 8585215)])).run = .faulted := by decide

/-- StepRunsDecodedInstruction and ExecutingPcDoesNotWrap: `pc` at the last cell. -/
theorem witness_step :
    (at_ 65535 [] []).run = .running ∧ (at_ 65535 [] []).pc.toNat < (at_ 65535 [] []).mem.words ∧
    (at_ 65535 [] []).inv = true := by decide

/-- FetchOutsideMemoryFaults: `pc` one past it. -/
theorem witness_fetch_outside :
    (at_ 65536 [] []).run = .running ∧ (at_ 65536 [] []).mem.words ≤ (at_ 65536 [] []).pc.toNat := by decide

/-- StoppedCoreKeepsState: both ways to be stopped. -/
theorem witness_stopped :
    (State.reset.setRun .halted).run ≠ .running ∧ (State.reset.setRun .faulted).run ≠ .running := by decide

/-- StoredWordIsFetchedNext: 95 S4. -/
theorem witness_stored_word :
    (at_ 3 [(1, 25165824)] [(3, 12648452)]).mem.valid 3 = true ∧ decode 12648452 = .sw 0 1 4 ∧
    (at_ 3 [(1, 25165824)] [(3, 12648452)]).mem.cell 3 = 12648452 ∧
    effectiveAddress ((at_ 3 [(1, 25165824)] [(3, 12648452)]).x 0) 4 = 3 + 1 ∧
    (at_ 3 [(1, 25165824)] [(3, 12648452)]).mem.valid (3 + 1) = true := by decide

/-- MemoryPortAccesses: an LW, an SW, an instruction with no data access, an SW and an LW at the first address that is
not valid, a fetch from there, and a stopped core. -/
theorem witness_accesses :
    accesses (at_ 0 [] [(0, 8454151)]) = [.fetch 0, .read 7] ∧
    accesses (at_ 3 [(2, 9)] [(3, 12713996)]) = [.fetch 3, .write 12 9] ∧
    accesses (at_ 0 [] []) = [.fetch 0] ∧
    dataAddress (at_ 3 [(1, 65535)] []) (.sw 1 2 1) = some (.store, 65536) ∧
    accesses (at_ 3 [(1, 65535)] [(3, encode (.sw 1 2 1))]) = [.fetch 3] ∧
    accesses (at_ 3 [(1, 65535)] [(3, encode (.lw 1 2 1))]) = [.fetch 3] ∧
    accesses (at_ 65536 [] []) = [] ∧ accesses (State.reset.setRun .halted) = [] := by decide

/-- StepKeepsInvariant, RunsKeepInvariant, OnlyHaltHalts, TraceCountsSteps: reset, a HALT and a fault. -/
theorem witness_invariant :
    State.reset.inv = true ∧ (at_ 3 [] [(3, 25165824)]).inv = true ∧ instrAt (at_ 3 [] [(3, 25165824)]) 3 = .halt ∧
    (stepState (at_ 3 [] [(3, 25165824)])).inv = true ∧ (stepState (at_ 3 [] [(3, 8585215)])).inv = true ∧
    State.reset.run ≠ .faulted := by decide

/-- RunsKeepInvariant: an image that loads, and the run of no steps. -/
theorem witness_loaded :
    loadImage 2 [5, 7] = .next (resetWith 2 [5, 7]) ∧
    Host.Core.run Sys2Proof.core 0 (resetWith 2 [5, 7]) = .next (resetWith 2 [5, 7]) := ⟨rfl, rfl⟩

/-- MemoryPortAccesses, OnlyHaltHalts and the other statements about a step: the step answers a next state. -/
theorem witness_step_answers : step (at_ 65536 [] []) = .next (fetchFault (at_ 65536 [] [])) := rfl

/-- ReassemblyIsIdempotent, OneWordPerLine, LabelResolvesToItsLine: a source that assembles, in 18 characters a line. -/
theorem witness_source :
    assemble ⟨18, 2⟩ "a beq 0 0 a\nb .fill -2147483648\n".toList = .error .lineTooLong ∧
    assemble ⟨20, 2⟩ "a beq 0 0 a\nb .fill -2147483648\n".toList =
      .ok [.instr 16842751, .fill (-2147483648)] ∧
    (18 ≤ (⟨20, 2⟩ : AsmParams).maxLine) ∧ canonicalWord 16842751 = true ∧
    (buildTable ⟨20, 2⟩ 0 [] ["a noop".toList, "b halt".toList]).toOption = some [(['a'], 0), (['b'], 1)] := by decide

/-- DuplicateLabelIsFatal: two lines, within both limits. -/
theorem witness_duplicate :
    (splitLines [] "a noop\na halt\n".toList).1 = ["a noop".toList, "a halt".toList] ∧
    (parseLine "a noop".toList).label = some ['a'] ∧ (parseLine "a halt".toList).label = some ['a'] ∧
    "a noop".toList.length ≤ 10 ∧ 2 ≤ 2 := by decide

/-- NumericOffsetRange and FillGivesValueModulo: the last number in range and the first outside, on both sides; and a
line whose tokens are not the plain decimals. -/
theorem witness_ranges :
    assembleLine [] 0 " lw 0 1 -32768".toList = .ok (.instr 8486912) ∧
    assembleLine [] 0 " lw 0 1 32768".toList = .error .argOverflow ∧
    assembleLine [] 0 " sw 7 6 32767".toList = .ok (.instr 16678911) ∧
    assembleLine [] 0 " sw 7 6 -32769".toList = .error .argOverflow ∧
    (parseLine "a\tbeq +2 03 -007 back".toList).mnemonic = "beq".toList ∧
    (parseLine "a\tbeq +2 03 -007 back".toList).args = ["+2".toList, "03".toList, "-007".toList] ∧
    parseInt "+2".toList = some 2 ∧ parseInt "03".toList = some 3 ∧ parseInt "-007".toList = some (-7) ∧
    assembleLine [] 0 "a\tbeq +2 03 -007 back".toList = .ok (.instr 18087929) ∧
    assembleLine [] 0 " beq 2 3 32768".toList = .error .argOverflow ∧
    assembleLine [] 0 " .fill 2147483647".toList = .ok (.fill 2147483647) ∧
    assembleLine [] 0 " .fill -2147483649".toList = .error .argOverflow := by decide

end Sys2Proof.Machine.Tests
end

section
/-! SUPPORT. The fields of a word and the layouts of 30 R52 to R59: what a field reads of a word built from fields, the
number such a word is, and that encoding a decoded word keeps exactly the bits its operation names. -/

namespace Sys2Proof

/-! ### One field -/

@[simp] theorem bitField_or (x y : Word) (lo n : Nat) : bitField (x ||| y) lo n = bitField x lo n ||| bitField y lo n :=
  BitVec.extractLsb'_or

@[simp] theorem bitField_and (x y : Word) (lo n : Nat) : bitField (x &&& y) lo n = bitField x lo n &&& bitField y lo n :=
  BitVec.extractLsb'_and

/-- Bit `i` of a field put at `lo` is the field's bit `i - lo`. -/
theorem getLsbD_fieldAt {n : Nat} (f : BitVec n) (lo i : Nat) (hi : i < 32) :
    (fieldAt lo f).getLsbD i = (decide (lo ≤ i) && f.getLsbD (i - lo)) := by
  by_cases h : lo ≤ i
  · simp [fieldAt, hi, h, Nat.not_lt.mpr h]
  · simp [fieldAt, hi, h, Nat.lt_of_not_le h]

/-- A field is read back from where it was put. -/
theorem bitField_fieldAt_same {n : Nat} (f : BitVec n) {lo : Nat} (h : lo + n ≤ 32) : bitField (fieldAt lo f) lo n = f := by
  apply BitVec.eq_of_getLsbD_eq
  intro i hi
  simp [bitField, hi, getLsbD_fieldAt f lo (lo + i) (by omega)]

/-- A field put elsewhere reads as zero. -/
theorem bitField_fieldAt_disjoint {m : Nat} (f : BitVec m) {lo lo' n : Nat} (hn : lo + n ≤ 32)
    (h : lo + n ≤ lo' ∨ lo' + m ≤ lo) : bitField (fieldAt lo' f) lo n = 0 := by
  apply BitVec.eq_of_getLsbD_eq
  intro i hi
  have hbit : (decide (lo' ≤ lo + i) && f.getLsbD (lo + i - lo')) = false := by
    rcases h with h | h
    · have : ¬ lo' ≤ lo + i := by omega
      simp [this]
    · rw [BitVec.getLsbD_of_ge f _ (by omega), Bool.and_false]
  simp [bitField, getLsbD_fieldAt f lo' (lo + i) (by omega), hbit]

/-- A field read from a word and put back is the word with every other bit cleared. -/
theorem fieldAt_bitField (w : Word) (lo n : Nat) :
    fieldAt lo (bitField w lo n) = w &&& fieldAt lo (BitVec.allOnes n) := by
  apply BitVec.eq_of_getLsbD_eq
  intro i hi
  rw [BitVec.getLsbD_and, getLsbD_fieldAt _ _ _ hi, getLsbD_fieldAt _ _ _ hi]
  by_cases h : lo ≤ i
  · simp [h, bitField, Bool.and_comm]
  · simp [h]

theorem toNat_fieldAt {n : Nat} (f : BitVec n) {lo : Nat} (h : lo + n ≤ 32) :
    (fieldAt lo f).toNat = f.toNat * 2 ^ lo := by
  have hf : f.toNat * 2 ^ lo < 2 ^ 32 := calc
    f.toNat * 2 ^ lo < 2 ^ n * 2 ^ lo := Nat.mul_lt_mul_of_pos_right f.isLt (Nat.two_pow_pos lo)
    _ = 2 ^ (lo + n) := by rw [← Nat.pow_add, Nat.add_comm]
    _ ≤ 2 ^ 32 := Nat.pow_le_pow_right (by decide) h
  have hn : f.toNat < 2 ^ 32 := Nat.lt_of_le_of_lt (Nat.le_mul_of_pos_right _ (Nat.two_pow_pos lo)) hf
  simp only [fieldAt, BitVec.toNat_shiftLeft, BitVec.toNat_setWidth, Nat.mod_eq_of_lt hn, Nat.shiftLeft_eq,
    Nat.mod_eq_of_lt hf]

/-- A field put below all bits of a word adds its number: the bits do not meet. -/
theorem toNat_or_fieldAt {n : Nat} (x : Word) (f : BitVec n) {lo : Nat} (h : lo + n ≤ 32) (hx : 2 ^ (lo + n) ∣ x.toNat) :
    (x ||| fieldAt lo f).toNat = x.toNat + f.toNat * 2 ^ lo := by
  obtain ⟨k, hk⟩ := hx
  have hf : f.toNat * 2 ^ lo < 2 ^ (lo + n) := by
    rw [Nat.pow_add, Nat.mul_comm]
    exact Nat.mul_lt_mul_of_pos_left f.isLt (Nat.two_pow_pos lo)
  rw [BitVec.toNat_or, toNat_fieldAt f h, hk, Nat.two_pow_add_eq_or_of_lt hf]

/-! ### The layouts: their numbers -/

theorem toNat_encodeO (op : BitVec 3) : (encodeO op).toNat = op.toNat * 2 ^ 22 := toNat_fieldAt op (by decide)

theorem toNat_encodeJ (op a b : BitVec 3) :
    (encodeJ op a b).toNat = op.toNat * 2 ^ 22 + a.toNat * 2 ^ 19 + b.toNat * 2 ^ 16 := by
  have hop := toNat_encodeO op
  have ha : (encodeO op ||| fieldAt 19 a).toNat = op.toNat * 2 ^ 22 + a.toNat * 2 ^ 19 := by
    rw [toNat_or_fieldAt _ _ (by decide) (by omega), hop]
  rw [show encodeJ op a b = encodeO op ||| fieldAt 19 a ||| fieldAt 16 b from rfl,
    toNat_or_fieldAt _ _ (by decide) (by omega), ha]

theorem toNat_encodeR (op a b d : BitVec 3) :
    (encodeR op a b d).toNat = op.toNat * 2 ^ 22 + a.toNat * 2 ^ 19 + b.toNat * 2 ^ 16 + d.toNat := by
  have hj := toNat_encodeJ op a b
  rw [show encodeR op a b d = encodeJ op a b ||| fieldAt 0 d from rfl,
    toNat_or_fieldAt _ _ (by decide) (by omega), hj, Nat.pow_zero, Nat.mul_one]

/-- The offset's formula of 30 R59 reads the field's signed value modulo `2^16`. -/
theorem toNat_encodeI (op a b : BitVec 3) (off : OffsetField) :
    (encodeI op a b off).toNat =
      op.toNat * 2 ^ 22 + a.toNat * 2 ^ 19 + b.toNat * 2 ^ 16 + (off.toInt % 2 ^ 16).toNat := by
  have hj := toNat_encodeJ op a b
  have hoff : (off.toInt % 2 ^ 16).toNat = off.toNat := by
    have h := BitVec.toNat_ofInt (n := 16) off.toInt
    rw [BitVec.ofInt_toInt] at h
    exact h.symm
  rw [show encodeI op a b off = encodeJ op a b ||| fieldAt 0 off from rfl,
    toNat_or_fieldAt _ _ (by decide) (by omega), hj, hoff, Nat.pow_zero, Nat.mul_one]

/-! ### The layouts: their fields -/

section Fields

variable (op a b d : BitVec 3) (off : OffsetField)

@[simp] theorem regAField_encodeR : regAField (encodeR op a b d) = a := by
  simp [regAField, encodeR, bitField_fieldAt_same, bitField_fieldAt_disjoint]

@[simp] theorem regBField_encodeR : regBField (encodeR op a b d) = b := by
  simp [regBField, encodeR, bitField_fieldAt_same, bitField_fieldAt_disjoint]

@[simp] theorem destRegField_encodeR : destRegField (encodeR op a b d) = d := by
  simp [destRegField, encodeR, bitField_fieldAt_same, bitField_fieldAt_disjoint]

@[simp] theorem regAField_encodeI : regAField (encodeI op a b off) = a := by
  simp [regAField, encodeI, bitField_fieldAt_same, bitField_fieldAt_disjoint]

@[simp] theorem regBField_encodeI : regBField (encodeI op a b off) = b := by
  simp [regBField, encodeI, bitField_fieldAt_same, bitField_fieldAt_disjoint]

@[simp] theorem offsetFieldOf_encodeI : offsetFieldOf (encodeI op a b off) = off := by
  simp [offsetFieldOf, encodeI, bitField_fieldAt_same, bitField_fieldAt_disjoint]

@[simp] theorem regAField_encodeJ : regAField (encodeJ op a b) = a := by
  simp [regAField, encodeJ, bitField_fieldAt_same, bitField_fieldAt_disjoint]

@[simp] theorem regBField_encodeJ : regBField (encodeJ op a b) = b := by
  simp [regBField, encodeJ, bitField_fieldAt_same, bitField_fieldAt_disjoint]

end Fields

/-! ### The decoder, one equation per opcode (30 R56) -/

section DecodeOf

variable {w : Word}

theorem opcode_eq_of_opcodeField {o : Opcode} (h : opcodeField w = o.bits) : Opcode.ofBits (opcodeField w) = o := by
  rw [h, Laws.opcode_ofBits_bits]

theorem decode_of_add (h : opcodeField w = Opcode.add.bits) :
    decode w = .add (regAField w) (regBField w) (destRegField w) := by
  simp only [decode, opcode_eq_of_opcodeField h]

theorem decode_of_nor (h : opcodeField w = Opcode.nor.bits) :
    decode w = .nor (regAField w) (regBField w) (destRegField w) := by
  simp only [decode, opcode_eq_of_opcodeField h]

theorem decode_of_lw (h : opcodeField w = Opcode.lw.bits) :
    decode w = .lw (regAField w) (regBField w) (offsetFieldOf w) := by
  simp only [decode, opcode_eq_of_opcodeField h]

theorem decode_of_sw (h : opcodeField w = Opcode.sw.bits) :
    decode w = .sw (regAField w) (regBField w) (offsetFieldOf w) := by
  simp only [decode, opcode_eq_of_opcodeField h]

theorem decode_of_beq (h : opcodeField w = Opcode.beq.bits) :
    decode w = .beq (regAField w) (regBField w) (offsetFieldOf w) := by
  simp only [decode, opcode_eq_of_opcodeField h]

theorem decode_of_jalr (h : opcodeField w = Opcode.jalr.bits) : decode w = .jalr (regAField w) (regBField w) := by
  simp only [decode, opcode_eq_of_opcodeField h]

theorem decode_of_halt (h : opcodeField w = Opcode.halt.bits) : decode w = .halt := by
  simp only [decode, opcode_eq_of_opcodeField h]

theorem decode_of_noop (h : opcodeField w = Opcode.noop.bits) : decode w = .noop := by
  simp only [decode, opcode_eq_of_opcodeField h]

end DecodeOf

/-- Settles O6: each clause is the decoder's equation for that opcode. -/
theorem opcodeSelectsFormat : Obligations.OpcodeSelectsFormat := fun _ =>
  ⟨decode_of_add, decode_of_nor, decode_of_lw, decode_of_sw, decode_of_beq, decode_of_jalr, decode_of_halt,
    decode_of_noop⟩

/-! ### Encoding and decoding -/

theorem Laws.Canonical.statement : ∀ i : Instr, Laws.Canonical.Statement i
  | .add a b d => Laws.Canonical.add a b d
  | .nor a b d => Laws.Canonical.nor a b d
  | .lw a b off => Laws.Canonical.lw a b off
  | .sw a b off => Laws.Canonical.sw a b off
  | .beq a b off => Laws.Canonical.beq a b off
  | .jalr a b => Laws.Canonical.jalr a b
  | .halt => Laws.Canonical.halt
  | .noop => Laws.Canonical.noop

@[simp] theorem opcodeField_encode (i : Instr) : opcodeField (encode i) = i.opcode.bits := (Laws.Canonical.statement i).2

@[simp] theorem decode_encode (i : Instr) : decode (encode i) = i := by
  have hop := opcodeField_encode i
  cases i with
  | add a b d => rw [decode_of_add hop]; simp [encode]
  | nor a b d => rw [decode_of_nor hop]; simp [encode]
  | lw a b off => rw [decode_of_lw hop]; simp [encode]
  | sw a b off => rw [decode_of_sw hop]; simp [encode]
  | beq a b off => rw [decode_of_beq hop]; simp [encode]
  | jalr a b => rw [decode_of_jalr hop]; simp [encode]
  | halt => exact decode_of_halt hop
  | noop => exact decode_of_noop hop

section Masks

variable (w : Word)

theorem encodeR_fields :
    encodeR (opcodeField w) (regAField w) (regBField w) (destRegField w) = w &&& 0x01FF0007 := by
  simp only [encodeR, opcodeField, regAField, regBField, destRegField, fieldAt_bitField, ← BitVec.and_or_distrib_left]
  rfl

theorem encodeI_fields :
    encodeI (opcodeField w) (regAField w) (regBField w) (offsetFieldOf w) = w &&& 0x01FFFFFF := by
  simp only [encodeI, opcodeField, regAField, regBField, offsetFieldOf, fieldAt_bitField, ← BitVec.and_or_distrib_left]
  rfl

theorem encodeJ_fields : encodeJ (opcodeField w) (regAField w) (regBField w) = w &&& 0x01FF0000 := by
  simp only [encodeJ, opcodeField, regAField, regBField, fieldAt_bitField, ← BitVec.and_or_distrib_left]
  rfl

theorem encodeO_field : encodeO (opcodeField w) = w &&& 0x01C00000 := by
  simp only [encodeO, opcodeField, fieldAt_bitField]
  rfl

/-- Encoding a decoded word clears the bits its operation does not name, and those alone (30 R58, R59). -/
theorem encode_decode : encode (decode w) = w &&& namedBits (decode w).opcode := by
  have hop : opcodeField w = (decode w).opcode.bits := by rw [Laws.decode_opcode, Laws.opcode_bits_ofBits]
  cases ho : (decode w).opcode with
  | add => rw [ho] at hop; rw [decode_of_add hop, encode, ← hop]; exact encodeR_fields w
  | nor => rw [ho] at hop; rw [decode_of_nor hop, encode, ← hop]; exact encodeR_fields w
  | lw => rw [ho] at hop; rw [decode_of_lw hop, encode, ← hop]; exact encodeI_fields w
  | sw => rw [ho] at hop; rw [decode_of_sw hop, encode, ← hop]; exact encodeI_fields w
  | beq => rw [ho] at hop; rw [decode_of_beq hop, encode, ← hop]; exact encodeI_fields w
  | jalr => rw [ho] at hop; rw [decode_of_jalr hop, encode, ← hop]; exact encodeJ_fields w
  | halt => rw [ho] at hop; rw [decode_of_halt hop, encode, ← hop]; exact encodeO_field w
  | noop => rw [ho] at hop; rw [decode_of_noop hop, encode, ← hop]; exact encodeO_field w

theorem canonicalWord_iff : canonicalWord w = true ↔ encode (decode w) = w := by
  rw [canonicalWord, beq_iff_eq, encode_decode, Laws.decode_opcode]

end Masks

theorem canonicalWord_encode (i : Instr) : canonicalWord (encode i) = true := by
  rw [canonicalWord_iff, decode_encode]

theorem encode_lt (i : Instr) : (encode i).toNat < 2 ^ 25 := by
  have h : (bitField (encode i) 25 7).toNat = 0 := by rw [(Laws.Canonical.statement i).1]; rfl
  rw [bitField, BitVec.extractLsb'_toNat, Nat.shiftRight_eq_div_pow] at h
  have := (encode i).isLt
  omega

/-- Settles O3: each formula is that of the layout, with the opcode's bits as a number. -/
theorem canonicalEncodingFormulas : Obligations.CanonicalEncodingFormulas :=
  ⟨fun _ _ _ _ =>
    ⟨toNat_encodeR _ _ _ _, toNat_encodeR _ _ _ _, toNat_encodeI _ _ _ _, toNat_encodeI _ _ _ _, toNat_encodeI _ _ _ _,
      toNat_encodeJ _ _ _, toNat_encodeO _, toNat_encodeO _⟩,
    fun i => ⟨canonicalWord_encode i, encode_lt i⟩⟩

/-- Every operation names the three opcode bits. -/
theorem opcodeField_and_namedBits (w : Word) (o : Opcode) : opcodeField (w &&& namedBits o) = opcodeField w := by
  have hones : opcodeField (namedBits o) = BitVec.allOnes 3 := by cases o <;> decide
  rw [opcodeField, bitField_and]
  exact (congrArg (opcodeField w &&& ·) hones).trans BitVec.and_allOnes

/-- Words that agree on the bits an operation names have the same opcode. -/
theorem opcode_eq_of_and_namedBits {w w' : Word} {o : Opcode} (h : w &&& namedBits o = w' &&& namedBits o) :
    (decode w).opcode = (decode w').opcode := by
  rw [Laws.decode_opcode, Laws.decode_opcode, ← opcodeField_and_namedBits w o, h, opcodeField_and_namedBits]

theorem decode_eq_iff (w w' : Word) :
    decode w = decode w' ↔ w &&& namedBits (decode w).opcode = w' &&& namedBits (decode w).opcode := by
  constructor
  · intro h
    rw [← encode_decode, h, ← encode_decode]
  · intro h
    have henc : encode (decode w) = encode (decode w') := by
      rw [encode_decode, encode_decode, ← opcode_eq_of_and_namedBits h, h]
    rw [← decode_encode (decode w), henc, decode_encode]

/-- Settles O4: a word's named bits are the encoding of its instruction, so they say which instruction it is. -/
theorem ignoredBitsDoNotMatter : Obligations.IgnoredBitsDoNotMatter :=
  ⟨⟨rfl, rfl, rfl, rfl, rfl, rfl, rfl, rfl⟩,
    fun w w' => ⟨decode_eq_iff w w', fun h s => by rw [(decode_eq_iff w w').mpr h]⟩⟩

end Sys2Proof
end

section
/-! SUPPORT. Decimal text and lines (Machine/Text.lean): what a number writes is read back, a line of blank-separated
tokens is cut into those tokens, and a text of ended lines into those lines. -/

namespace Sys2Proof.Machine

/-! ### Decimal numbers (30 R71, R80) -/

theorem digitValue_digitChar : ∀ d < 10, digitValue (digitChar d) = some d := by decide

/-- A digit is no blank, no newline and no sign. -/
theorem digitChar_plain : ∀ d < 10,
    isBlank (digitChar d) = false ∧ digitChar d ≠ '\n' ∧ digitChar d ≠ '-' ∧ digitChar d ≠ '+' := by decide

/-- What holds of every one-digit text, and of a text with one more digit when it holds of the text without it, holds
of the decimal text of every number. -/
theorem natText_induction {P : Nat → List Char → Prop} (digit : ∀ n < 10, P n [digitChar n])
    (snoc : ∀ n text, 10 ≤ n → P (n / 10) text → P n (text ++ [digitChar (n % 10)])) (n : Nat) : P n (natText n) := by
  suffices h : ∀ fuel n, n < fuel → P n (natTextFuel fuel n) from h (n + 1) n (Nat.lt_succ_self n)
  intro fuel
  induction fuel with
  | zero => exact fun _ h => absurd h (Nat.not_lt_zero _)
  | succ fuel ih =>
    intro n hn
    rw [natTextFuel]
    split
    · next hd => exact digit n hd
    · next hd => exact snoc n _ (Nat.le_of_not_lt hd) (ih _ (by omega))

theorem natText_ne_nil (n : Nat) : natText n ≠ [] :=
  natText_induction (P := fun _ text => text ≠ []) (fun _ _ => by simp) (fun _ _ _ _ => by simp) n

theorem mem_natText {n : Nat} {c : Char} : c ∈ natText n → ∃ d < 10, c = digitChar d := by
  refine natText_induction (P := fun _ text => c ∈ text → ∃ d < 10, c = digitChar d) ?_ ?_ n
  · intro d hd hc
    exact ⟨d, hd, by simpa using hc⟩
  · intro n text _ ih hc
    rcases List.mem_append.mp hc with hc | hc
    · exact ih hc
    · exact ⟨n % 10, Nat.mod_lt n (by decide), by simpa using hc⟩

/-- A number below `10^k` has at most `k` digits. -/
theorem length_natText_le {n k : Nat} (hk : 0 < k) : n < 10 ^ k → (natText n).length ≤ k := by
  refine natText_induction (P := fun n text => ∀ k, 0 < k → n < 10 ^ k → text.length ≤ k) ?_ ?_ n k hk
  · intro n _ k hk _
    exact hk
  · intro n text hn ih k hk hlt
    obtain _ | _ | k := k
    · exact absurd hk (by decide)
    · omega
    · have := ih (k + 1) (Nat.succ_pos k) (by omega)
      simpa using this

theorem digitsValue_append (acc : Nat) (text more : List Char) :
    digitsValue acc (text ++ more) = (digitsValue acc text).bind (fun n => digitsValue n more) := by
  induction text generalizing acc with
  | nil => rfl
  | cons c text ih =>
    simp only [List.cons_append, digitsValue]
    cases digitValue c with
    | none => rfl
    | some d => exact ih _

theorem digitsValue_natText (n : Nat) : digitsValue 0 (natText n) = some n := by
  refine natText_induction (P := fun n text => digitsValue 0 text = some n) ?_ ?_ n
  · intro n hn
    simp [digitsValue, digitValue_digitChar n hn]
  · intro n text _ ih
    simp only [digitsValue_append, ih, Option.bind_some, digitsValue,
      digitValue_digitChar _ (Nat.mod_lt n (by decide : 10 > 0)), Option.some.injEq]
    omega

theorem parseNat_natText (n : Nat) : parseNat (natText n) = some n := by
  rw [parseNat, if_neg (natText_ne_nil n), digitsValue_natText]

@[simp] theorem parseInt_natText (n : Nat) : parseInt (natText n) = some (n : Int) := by
  have hparse := parseNat_natText n
  cases htext : natText n with
  | nil => exact absurd htext (natText_ne_nil n)
  | cons c rest =>
    obtain ⟨d, hd, hc⟩ := mem_natText (n := n) (c := c) (by rw [htext]; exact List.mem_cons_self)
    obtain ⟨-, -, hminus, hplus⟩ := digitChar_plain d hd
    rw [← hc] at hminus hplus
    rw [htext] at hparse
    simp only [parseInt, hminus, hplus, if_false, hparse]
    rfl

/-- An integer is read back from its decimal text. -/
@[simp] theorem parseInt_intText (v : Int) : parseInt (intText v) = some v := by
  cases v with
  | ofNat n => exact parseInt_natText n
  | negSucc n =>
    simp only [intText, parseInt, if_true, parseNat_natText]
    rfl

/-- A number of magnitude below `10^k` has at most `k` digits and a sign. -/
theorem length_intText_le {v : Int} {k : Nat} (hk : 0 < k) (hv : v.natAbs < 10 ^ k) : (intText v).length ≤ k + 1 := by
  cases v with
  | ofNat n => exact Nat.le_succ_of_le (length_natText_le hk hv)
  | negSucc n => exact Nat.succ_le_succ (length_natText_le hk hv)

/-! ### Tokens and the lines they make (30 R65) -/

/-- A run of characters that a line keeps together: not empty, no blank and no newline. -/
def IsToken (t : List Char) : Prop := t ≠ [] ∧ ∀ c ∈ t, isBlank c = false ∧ c ≠ '\n'

theorem isToken_natText (n : Nat) : IsToken (natText n) := by
  refine ⟨natText_ne_nil n, fun c hc => ?_⟩
  obtain ⟨d, hd, rfl⟩ := mem_natText hc
  obtain ⟨hblank, hnewline, -, -⟩ := digitChar_plain d hd
  exact ⟨hblank, hnewline⟩

theorem isToken_intText (v : Int) : IsToken (intText v) := by
  cases v with
  | ofNat n => exact isToken_natText n
  | negSucc n =>
    exact ⟨List.cons_ne_nil _ _, List.forall_mem_cons.mpr ⟨by decide, (isToken_natText (n + 1)).2⟩⟩

theorem isToken_mnemonicText (o : Opcode) : IsToken (mnemonicText o) := by
  cases o <;> simp [IsToken, mnemonicText, isBlank]

theorem isToken_fillText : IsToken fillText := by
  simp [IsToken, fillText, isBlank]

/-- The line without a label that holds these tokens, one blank before each. -/
def spaced (tokens : List (List Char)) : List Char := tokens.flatMap (fun t => ' ' :: t)

/-- A token's characters join the current run. -/
theorem fieldsFrom_append {t : List Char} (ht : ∀ c ∈ t, isBlank c = false) (cur rest : List Char) :
    fieldsFrom cur (t ++ rest) = fieldsFrom (t.reverse ++ cur) rest := by
  induction t generalizing cur with
  | nil => rfl
  | cons c t ih =>
    obtain ⟨hc, ht⟩ := List.forall_mem_cons.mp ht
    simp [fieldsFrom, hc, ih ht]

theorem fieldsFrom_spaced {tokens : List (List Char)} (htok : ∀ t ∈ tokens, IsToken t) (cur : List Char) :
    fieldsFrom cur (spaced tokens) = (if cur = [] then [] else [cur.reverse]) ++ tokens := by
  induction tokens generalizing cur with
  | nil => simp [spaced, fieldsFrom]
  | cons t tokens ih =>
    obtain ⟨⟨hne, hchars⟩, hrest⟩ := List.forall_mem_cons.mp htok
    have htail : fieldsFrom [] (t ++ spaced tokens) = t :: tokens := by
      rw [fieldsFrom_append (fun c hc => (hchars c hc).1), ih hrest]
      simp [hne]
    have hblank : isBlank ' ' = true := rfl
    have hcons : spaced (t :: tokens) = ' ' :: (t ++ spaced tokens) := rfl
    rw [hcons, fieldsFrom, if_pos hblank, htail]
    split <;> rfl

theorem fields_spaced {tokens : List (List Char)} (htok : ∀ t ∈ tokens, IsToken t) : fields (spaced tokens) = tokens :=
  fieldsFrom_spaced htok []

theorem newline_not_mem_spaced {tokens : List (List Char)} (htok : ∀ t ∈ tokens, IsToken t) : '\n' ∉ spaced tokens := by
  intro h
  obtain ⟨t, ht, hmem⟩ := List.mem_flatMap.mp h
  rcases List.mem_cons.mp hmem with h | h
  · exact absurd h (by decide)
  · exact ((htok t ht).2 _ h).2 rfl

/-- A line of tokens has no label; its first token is the mnemonic and the next three are the arguments. -/
theorem parseLine_spaced {name : List Char} {args : List (List Char)} (htok : ∀ t ∈ name :: args, IsToken t) :
    parseLine (spaced (name :: args)) = ⟨none, name, args.take 3⟩ := by
  have hcons : spaced (name :: args) = ' ' :: (name ++ spaced args) := rfl
  have htake : (spaced (name :: args)).takeWhile (fun c => !isBlank c) = [] := by rw [hcons]; rfl
  have hdrop : (spaced (name :: args)).dropWhile (fun c => !isBlank c) = spaced (name :: args) := by rw [hcons]; rfl
  simp [parseLine, htake, hdrop, fields_spaced htok]

/-! ### Texts of lines (30 R65) -/

/-- A text up to its first newline is its first line. -/
theorem splitLines_line {line : List Char} (hline : '\n' ∉ line) (cur rest : List Char) :
    splitLines cur (line ++ '\n' :: rest) =
      ((cur.reverse ++ line) :: (splitLines [] rest).1, (splitLines [] rest).2) := by
  induction line generalizing cur with
  | nil => simp [splitLines]
  | cons c line ih =>
    obtain ⟨hc, hline⟩ := not_or.mp (List.mem_cons.not.mp hline)
    simp [splitLines, Ne.symm hc, ih hline]

/-- A text of ended lines is cut into those lines, with nothing left. -/
theorem splitLines_ended {lines : List (List Char)} (hlines : ∀ line ∈ lines, '\n' ∉ line) :
    splitLines [] (lines.map (· ++ ['\n'])).flatten = (lines, []) := by
  induction lines with
  | nil => rfl
  | cons line lines ih =>
    obtain ⟨hline, hlines⟩ := List.forall_mem_cons.mp hlines
    rw [List.map_cons, List.flatten_cons, List.append_assoc, List.singleton_append, splitLines_line hline, ih hlines]
    rfl

end Sys2Proof.Machine
end

section
/-! SUPPORT. The assembler (Machine/Assembler.lean): what each operand and statement form answers, what a line that
assembles can give, and what each pass says of the whole source. -/

namespace Sys2Proof.Machine

/-! ### Operands and statements (30 R71 to R77) -/

theorem exceptBind_eq_ok {ε α β : Type} {x : Except ε α} {f : α → Except ε β} {b : β} :
    x >>= f = .ok b ↔ ∃ a, x = .ok a ∧ f a = .ok b := by
  cases x <;> simp [bind, Except.bind]

@[simp] theorem mnemonicOf_mnemonicText (o : Opcode) : mnemonicOf (mnemonicText o) = some (.op o) := by
  cases o <;> rfl

@[simp] theorem mnemonicOf_fillText : mnemonicOf fillText = some .fill := rfl

section Operands

variable {args : List (List Char)} {k : Nat} {table : LabelTable} {ofLabel : Nat → Int} {inRange : Int → Bool}

/-- A numeric token of a register's number is that register, however it is written (30 R73). -/
theorem registerOperand_of_parseInt {r : RegNum} (h : parseInt (args.getD k []) = some (r.toNat : Int)) :
    registerOperand args k = .ok r := by
  have hok : regNumOk (r.toNat : Int) = true := (regNumOk_iff _).mpr (by omega)
  simp only [registerOperand, h, hok, if_true, BitVec.ofInt_natCast, BitVec.ofNat_toNat, BitVec.setWidth_eq]

theorem registerOperand_natText {r : RegNum} (h : args.getD k [] = natText r.toNat) : registerOperand args k = .ok r :=
  registerOperand_of_parseInt (by rw [h, parseInt_natText])

theorem valueOperand_of_number {v : Int} (h : parseInt (args.getD k []) = some v) (hv : inRange v = true) :
    valueOperand table ofLabel inRange args k = .ok v := by
  simp only [valueOperand, h, hv, if_true]

theorem valueOperand_of_label {a : Nat} (h : parseInt (args.getD k []) = none)
    (ha : lookupLabel table (args.getD k []) = some a) (hv : inRange (ofLabel a) = true) :
    valueOperand table ofLabel inRange args k = .ok (ofLabel a) := by
  simp only [valueOperand, h, ha, hv, if_true]

/-- A value operand is never out of its range. -/
theorem inRange_of_valueOperand {v : Int} (h : valueOperand table ofLabel inRange args k = .ok v) :
    inRange v = true := by
  simp only [valueOperand] at h
  split at h
  · split at h
    · next hv => cases h; exact hv
    · cases h
  · split at h
    · cases h
    · split at h
      · next hv => cases h; exact hv
      · cases h

end Operands

section Statements

variable {args : List (List Char)} {a b d : RegNum} {w : MachineWord}

theorem statementR_of_operands {mk : RegNum → RegNum → RegNum → Instr} (ha : registerOperand args 0 = .ok a)
    (hb : registerOperand args 1 = .ok b) (hd : registerOperand args 2 = .ok d) :
    statementR args mk = .ok (.instr (encode (mk a b d))) := by
  rw [statementR, ha, hb, hd]
  rfl

theorem statementI_of_operands {table : LabelTable} {ofLabel : Nat → Int} {mk : RegNum → RegNum → OffsetField → Instr}
    {v : Int} (ha : registerOperand args 0 = .ok a) (hb : registerOperand args 1 = .ok b)
    (hv : valueOperand table ofLabel offsetOk args 2 = .ok v) :
    statementI table ofLabel args mk = .ok (.instr (encode (mk a b (BitVec.ofInt 16 v)))) := by
  rw [statementI, ha, hb, hv]
  rfl

theorem statementJ_of_operands {mk : RegNum → RegNum → Instr} (ha : registerOperand args 0 = .ok a)
    (hb : registerOperand args 1 = .ok b) : statementJ args mk = .ok (.instr (encode (mk a b))) := by
  rw [statementJ, ha, hb]
  rfl

theorem statementR_eq_ok {mk : RegNum → RegNum → RegNum → Instr} (h : statementR args mk = .ok w) :
    ∃ i, w = .instr (encode i) := by
  simp only [statementR, exceptBind_eq_ok] at h
  obtain ⟨a, -, b, -, d, -, hw⟩ := h
  exact ⟨mk a b d, (Except.ok.inj hw).symm⟩

theorem statementI_eq_ok {table : LabelTable} {ofLabel : Nat → Int} {mk : RegNum → RegNum → OffsetField → Instr}
    (h : statementI table ofLabel args mk = .ok w) : ∃ i, w = .instr (encode i) := by
  simp only [statementI, exceptBind_eq_ok] at h
  obtain ⟨a, -, b, -, v, -, hw⟩ := h
  exact ⟨mk a b (BitVec.ofInt 16 v), (Except.ok.inj hw).symm⟩

theorem statementJ_eq_ok {mk : RegNum → RegNum → Instr} (h : statementJ args mk = .ok w) :
    ∃ i, w = .instr (encode i) := by
  simp only [statementJ, exceptBind_eq_ok] at h
  obtain ⟨a, -, b, -, hw⟩ := h
  exact ⟨mk a b, (Except.ok.inj hw).symm⟩

/-- A statement gives a canonical instruction word, or a `.fill` value that fits a cell. -/
theorem statement_eq_ok {table : LabelTable} {addr : Nat} {m : Mnemonic} (h : statement table addr args m = .ok w) :
    (∃ i, w = .instr (encode i)) ∨ ∃ v, w = .fill v ∧ cellValueOk v = true := by
  cases m with
  | op o =>
    left
    cases o with
    | add => exact statementR_eq_ok h
    | nor => exact statementR_eq_ok h
    | lw => exact statementI_eq_ok h
    | sw => exact statementI_eq_ok h
    | beq => exact statementI_eq_ok h
    | jalr => exact statementJ_eq_ok h
    | halt => exact ⟨.halt, (Except.ok.inj h).symm⟩
    | noop => exact ⟨.noop, (Except.ok.inj h).symm⟩
  | fill =>
    right
    cases hv : valueOperand table (fun a => (a : Int)) cellValueOk args 0 with
    | error e => simp [statement, hv, Except.map] at h
    | ok v =>
      rw [statement, hv] at h
      exact ⟨v, (Except.ok.inj h).symm, inRange_of_valueOperand hv⟩

end Statements

/-! ### One line of pass 2 (30 R77) -/

section Line

variable {table : LabelTable} {addr : Nat} {line : List Char} {m : Mnemonic}

/-- A line with a known mnemonic and enough arguments is its statement. -/
theorem assembleLine_eq_statement (hm : mnemonicOf (parseLine line).mnemonic = some m)
    (hargs : m.arity ≤ (parseLine line).args.length) :
    assembleLine table addr line = statement table addr (parseLine line).args m := by
  simp only [assembleLine, hm, if_neg (Nat.not_lt.mpr hargs)]

theorem arity_le_three (m : Mnemonic) : m.arity ≤ 3 := by
  cases m with
  | op o => cases o <;> decide
  | fill => decide

theorem assembleLine_spaced {name : List Char} {args : List (List Char)} (htok : ∀ t ∈ name :: args, IsToken t)
    (hm : mnemonicOf name = some m) (hargs : args.length = m.arity) :
    assembleLine table addr (spaced (name :: args)) = statement table addr args m := by
  have htake : args.take 3 = args := List.take_of_length_le (hargs ▸ arity_le_three m)
  have hline : parseLine (spaced (name :: args)) = ⟨none, name, args⟩ := by rw [parseLine_spaced htok, htake]
  rw [assembleLine_eq_statement (m := m) (by rw [hline]; exact hm) (by rw [hline]; exact hargs.ge), hline]

/-- A line that assembles gives a canonical instruction word, or a `.fill` value that fits a cell. -/
theorem assembleLine_eq_ok {w : MachineWord} (h : assembleLine table addr line = .ok w) :
    (∃ i, w = .instr (encode i)) ∨ ∃ v, w = .fill v ∧ cellValueOk v = true := by
  simp only [assembleLine] at h
  split at h
  · cases h
  · split at h
    · cases h
    · exact statement_eq_ok h

end Line

/-! ### The passes over a source (30 R69, R79) -/

/-- Pass 1 enters no label when no line has one, and passes every line that is short enough. -/
theorem buildTable_unlabelled (p : AsmParams) (addr : Nat) (table : LabelTable) {lines : List (List Char)}
    (h : ∀ line ∈ lines, line.length ≤ p.maxLine ∧ (parseLine line).label = none) :
    buildTable p addr table lines = .ok table := by
  induction lines generalizing addr with
  | nil => rfl
  | cons line lines ih =>
    obtain ⟨⟨hlen, hlabel⟩, hrest⟩ := List.forall_mem_cons.mp h
    simp only [buildTable, if_neg (Nat.not_lt.mpr hlen), hlabel, ih _ hrest]

/-- Pass 2 answers words exactly when each line at its address assembles to its word. -/
theorem emit_eq_ok_iff (table : LabelTable) (addr : Nat) (lines : List (List Char)) (ws : List MachineWord) :
    emit table addr lines = .ok ws ↔
      lines.mapIdx (fun k line => assembleLine table (addr + k) line) = ws.map Except.ok := by
  induction lines generalizing addr ws with
  | nil => simp [emit, eq_comm]
  | cons line lines ih =>
    have hshift : (fun k line => assembleLine table (addr + (k + 1)) line) =
        fun k line => assembleLine table (addr + 1 + k) line := by
      funext k line
      rw [Nat.add_assoc, Nat.add_comm 1 k]
    rw [List.mapIdx_cons, hshift, Nat.add_zero, emit]
    cases hline : assembleLine table addr line with
    | error e => cases ws <;> simp
    | ok w =>
      cases ws with
      | nil => cases emit table (addr + 1) lines <;> simp
      | cons w' ws =>
        rw [List.map_cons, List.cons.injEq, ← ih (addr + 1) ws]
        cases emit table (addr + 1) lines <;> simp

/-- Assembly succeeds exactly when pass 1, the check of what is left, and pass 2 do. -/
theorem assemble_eq_ok_iff (p : AsmParams) (source : List Char) (ws : List MachineWord) :
    assemble p source = .ok ws ↔
      ∃ table, buildTable p 0 [] (splitLines [] source).1 = .ok table ∧
        lastLineError p (splitLines [] source).2 = none ∧ emit table 0 (splitLines [] source).1 = .ok ws := by
  rw [assemble]
  cases buildTable p 0 [] (splitLines [] source).1 with
  | error e => simp
  | ok table => cases lastLineError p (splitLines [] source).2 <;> simp

/-- Settles O49: pass 2 maps the lines to words one by one, each with its number as its address. -/
theorem oneWordPerLine : Obligations.OneWordPerLine := by
  intro p source ws h
  obtain ⟨table, htable, -, hemit⟩ := (assemble_eq_ok_iff p source ws).mp h
  rw [emit_eq_ok_iff] at hemit
  have hlen := congrArg List.length hemit
  rw [List.length_mapIdx, List.length_map] at hlen
  refine ⟨table, htable, hlen.symm, fun k hk hk' => ?_⟩
  have hword := List.getElem_of_eq hemit (i := k) (by rwa [List.length_mapIdx])
  simpa using hword

end Sys2Proof.Machine
end

section
/-! SUPPORT. The branch to a label (30 R75), in the assembler and in the machine. -/

namespace Sys2Proof.Machine

/-- The sign extension of a field that was cut from a number in its range is that number (30 R57). -/
theorem sext32_ofInt {v : Int} (h : offsetOk v = true) : sext32 (BitVec.ofInt 16 v) = BitVec.ofInt 32 v := by
  obtain ⟨hlo, hhi⟩ := (offsetOk_iff v).mp h
  have h16 : v.bmod (2 ^ 16) = v := Int.bmod_eq_of_le (by omega) (by omega)
  have h32 : v.bmod (2 ^ 32) = v := Int.bmod_eq_of_le (by omega) (by omega)
  apply BitVec.eq_of_toInt_eq
  rw [sext32, BitVec.toInt_signExtend, BitVec.toInt_ofInt, BitVec.toInt_ofInt, h32, h16, Nat.min_eq_right (by decide),
    h16]

/-- Taken, a branch whose offset is the distance from `a + 1` to `t` goes from `a` to `t`. -/
theorem branchTarget_branchOffset {a t : Nat} (h : offsetOk (branchOffset a t) = true) :
    branchTarget (BitVec.ofNat 32 a) (BitVec.ofInt 16 (branchOffset a t)) = BitVec.ofNat 32 t := by
  rw [branchTarget, sext32_ofInt h, ← BitVec.ofInt_natCast, ← BitVec.ofInt_natCast,
    show (1 : Word) = BitVec.ofInt 32 1 from rfl, ← BitVec.ofInt_add, ← BitVec.ofInt_add, branchOffset]
  congr 1
  omega

/-- A `beq` line with two registers and a label assembles to the branch over the label's distance. -/
theorem assembleLine_beq_label {table : LabelTable} {line label : List Char} {a t : Nat} {ra rb : RegNum}
    (hfit : offsetOk (branchOffset a t) = true) (hlookup : lookupLabel table label = some t)
    (hlabel : parseInt label = none) (hm : (parseLine line).mnemonic = mnemonicText .beq)
    (hargs : (parseLine line).args = [natText ra.toNat, natText rb.toNat, label]) :
    assembleLine table a line = .ok (.instr (encode (.beq ra rb (BitVec.ofInt 16 (branchOffset a t))))) := by
  rw [assembleLine_eq_statement (m := .op .beq) (by rw [hm, mnemonicOf_mnemonicText]) (by rw [hargs]; rfl), hargs]
  exact statementI_of_operands (registerOperand_natText rfl) (registerOperand_natText rfl)
    (valueOperand_of_label hlabel hlookup hfit)

/-- Settles O26: the assembler's offset and the branch's target are inverse to each other. -/
theorem branchOffsetRoundTrip : Obligations.BranchOffsetRoundTrip := by
  refine ⟨fun a t ra rb hfit => ⟨fun table line label hlookup hlabel hm hargs => ?_, fun s hpc heq => ?_⟩, rfl, rfl⟩
  · exact assembleLine_beq_label hfit hlookup hlabel hm hargs
  · have htarget : branchTarget s.pc (BitVec.ofInt 16 ((t : Int) - ((a : Int) + 1))) = BitVec.ofNat 32 t :=
      hpc ▸ branchTarget_branchOffset hfit
    rw [exec_beq, if_pos heq, htarget]
    rfl

end Sys2Proof.Machine
end

section
/-! SUPPORT. The disassembly (30 R82): each word's line is a line of tokens, short enough, and assembles to the word. -/

namespace Sys2Proof.Machine

/-- The operands of an instruction's statement. -/
def operandTokens : Instr → List (List Char)
  | .add a b d => [natText a.toNat, natText b.toNat, natText d.toNat]
  | .nor a b d => [natText a.toNat, natText b.toNat, natText d.toNat]
  | .lw a b off => [natText a.toNat, natText b.toNat, intText off.toInt]
  | .sw a b off => [natText a.toNat, natText b.toNat, intText off.toInt]
  | .beq a b off => [natText a.toNat, natText b.toNat, intText off.toInt]
  | .jalr a b => [natText a.toNat, natText b.toNat]
  | .halt => []
  | .noop => []

/-- The tokens of the line an output word disassembles to. -/
def lineTokens : MachineWord → List (List Char)
  | .instr w => mnemonicText (decode w).opcode :: operandTokens (decode w)
  | .fill v => [fillText, intText v]

theorem instrText_eq_spaced (i : Instr) : instrText i = spaced (mnemonicText i.opcode :: operandTokens i) := by
  cases i <;> simp [instrText, spaced, operandTokens]

theorem disassembleLine_eq_spaced (w : MachineWord) : disassembleLine w = spaced (lineTokens w) := by
  cases w with
  | instr w => exact instrText_eq_spaced (decode w)
  | fill v => simp [disassembleLine, lineTokens, spaced]

theorem isToken_operandTokens (i : Instr) : ∀ t ∈ operandTokens i, IsToken t := by
  cases i <;> simp [operandTokens, isToken_natText, isToken_intText]

theorem isToken_instrTokens (i : Instr) : ∀ t ∈ mnemonicText i.opcode :: operandTokens i, IsToken t :=
  List.forall_mem_cons.mpr ⟨isToken_mnemonicText _, isToken_operandTokens i⟩

theorem isToken_lineTokens (w : MachineWord) : ∀ t ∈ lineTokens w, IsToken t := by
  cases w with
  | instr w => exact isToken_instrTokens (decode w)
  | fill v => simp [lineTokens, isToken_fillText, isToken_intText]

theorem offsetOk_toInt (off : OffsetField) : offsetOk off.toInt = true := by
  have hlo := BitVec.le_toInt off
  have hhi := BitVec.toInt_lt (x := off)
  exact (offsetOk_iff _).mpr (by omega)

theorem statementR_numeric (a b d : RegNum) (mk : RegNum → RegNum → RegNum → Instr) :
    statementR [natText a.toNat, natText b.toNat, natText d.toNat] mk = .ok (.instr (encode (mk a b d))) :=
  statementR_of_operands (registerOperand_natText rfl) (registerOperand_natText rfl) (registerOperand_natText rfl)

theorem statementI_numeric (table : LabelTable) (ofLabel : Nat → Int) (a b : RegNum) (off : OffsetField)
    (mk : RegNum → RegNum → OffsetField → Instr) :
    statementI table ofLabel [natText a.toNat, natText b.toNat, intText off.toInt] mk =
      .ok (.instr (encode (mk a b off))) := by
  have hoff : valueOperand table ofLabel offsetOk [natText a.toNat, natText b.toNat, intText off.toInt] 2 =
      .ok off.toInt := valueOperand_of_number (parseInt_intText off.toInt) (offsetOk_toInt off)
  rw [statementI_of_operands (registerOperand_natText rfl) (registerOperand_natText rfl) hoff, BitVec.ofInt_toInt]

/-- An instruction's statement with numeric operands assembles to its canonical word (30 R72). -/
theorem assembleLine_instrText (table : LabelTable) (addr : Nat) (i : Instr) :
    assembleLine table addr (instrText i) = .ok (.instr (encode i)) := by
  have hlen : (operandTokens i).length = (Mnemonic.op i.opcode).arity := by cases i <;> rfl
  rw [instrText_eq_spaced, assembleLine_spaced (isToken_instrTokens i) (mnemonicOf_mnemonicText _) hlen]
  cases i with
  | add a b d => exact statementR_numeric a b d .add
  | nor a b d => exact statementR_numeric a b d .nor
  | lw a b off => exact statementI_numeric _ _ a b off .lw
  | sw a b off => exact statementI_numeric _ _ a b off .sw
  | beq a b off => exact statementI_numeric _ _ a b off .beq
  | jalr a b => exact statementJ_of_operands (registerOperand_natText rfl) (registerOperand_natText rfl)
  | halt => rfl
  | noop => rfl

theorem assembleLine_fill (table : LabelTable) (addr : Nat) {v : Int} (hv : cellValueOk v = true) :
    assembleLine table addr (disassembleLine (.fill v)) = .ok (.fill v) := by
  have hoperand : valueOperand table (fun a => (a : Int)) cellValueOk [intText v] 0 = .ok v :=
    valueOperand_of_number (parseInt_intText v) hv
  rw [disassembleLine_eq_spaced, lineTokens, assembleLine_spaced (isToken_lineTokens (.fill v)) mnemonicOf_fillText rfl,
    statement, hoperand]
  rfl

/-- What an assembler can put out: a canonical instruction word, or a `.fill` value that fits a cell. -/
def MachineWord.IsOutput : MachineWord → Prop
  | .instr w => canonicalWord w = true
  | .fill v => cellValueOk v = true

theorem isOutput_of_assembleLine {table : LabelTable} {addr : Nat} {line : List Char} {w : MachineWord}
    (h : assembleLine table addr line = .ok w) : w.IsOutput := by
  rcases assembleLine_eq_ok h with ⟨i, rfl⟩ | ⟨v, rfl, hv⟩
  · exact canonicalWord_encode i
  · exact hv

theorem isOutput_of_assemble {p : AsmParams} {source : List Char} {ws : List MachineWord}
    (h : assemble p source = .ok ws) : ∀ w ∈ ws, w.IsOutput := by
  obtain ⟨table, -, -, hemit⟩ := (assemble_eq_ok_iff p source ws).mp h
  rw [emit_eq_ok_iff] at hemit
  intro w hw
  have hmem : Except.ok w ∈ ws.map (Except.ok (ε := AsmError)) := List.mem_map_of_mem hw
  rw [← hemit] at hmem
  obtain ⟨k, hk, hline⟩ := List.mem_mapIdx.mp hmem
  exact isOutput_of_assembleLine hline

/-- A word's line gives the word back, at every address and with every table. -/
theorem assembleLine_disassembleLine (table : LabelTable) (addr : Nat) {w : MachineWord} (hw : w.IsOutput) :
    assembleLine table addr (disassembleLine w) = .ok w := by
  cases w with
  | instr w => rw [disassembleLine, assembleLine_instrText, (canonicalWord_iff w).mp hw]
  | fill v => exact assembleLine_fill table addr hw

theorem length_natText_regNum (r : RegNum) : (natText r.toNat).length ≤ 1 := length_natText_le (by decide) (by omega)

theorem length_intText_offset (off : OffsetField) : (intText off.toInt).length ≤ 6 := by
  have h := (offsetOk_iff _).mp (offsetOk_toInt off)
  exact length_intText_le (k := 5) (by decide) (by omega)

theorem length_mnemonicText_le (o : Opcode) : (mnemonicText o).length ≤ 4 := by
  cases o <;> decide

theorem length_operands_le (i : Instr) : (spaced (operandTokens i)).length ≤ 11 := by
  have hthree (a b : RegNum) {last : List Char} (hlast : last.length ≤ 6) :
      (spaced [natText a.toNat, natText b.toNat, last]).length ≤ 11 := by
    have ha := length_natText_regNum a
    have hb := length_natText_regNum b
    simp only [spaced, List.flatMap_cons, List.flatMap_nil, List.length_append, List.length_cons, List.length_nil]
    omega
  have hreg (d : RegNum) : (natText d.toNat).length ≤ 6 := (length_natText_regNum d).trans (by decide)
  cases i with
  | add a b d => exact hthree a b (hreg d)
  | nor a b d => exact hthree a b (hreg d)
  | lw a b off => exact hthree a b (length_intText_offset off)
  | sw a b off => exact hthree a b (length_intText_offset off)
  | beq a b off => exact hthree a b (length_intText_offset off)
  | jalr a b =>
    have hempty := hthree a b (last := []) (by decide)
    exact le_trans (by simp [spaced, operandTokens]) hempty
  | halt => decide
  | noop => decide

/-- The longest line is that of `.fill -2147483648`, of 18 characters. -/
theorem length_disassembleLine_le {w : MachineWord} (hw : w.IsOutput) : (disassembleLine w).length ≤ 18 := by
  cases w with
  | instr w =>
    have hname := length_mnemonicText_le (decode w).opcode
    have hoperands := length_operands_le (decode w)
    simp only [disassembleLine, instrText_eq_spaced, spaced, List.flatMap_cons, List.length_append, List.length_cons]
      at hoperands ⊢
    omega
  | fill v =>
    have hrange := (cellValueOk_iff v).mp hw
    have hvalue : (intText v).length ≤ 11 := length_intText_le (k := 10) (by decide) (by omega)
    simp only [disassembleLine, fillText, List.length_append, List.length_cons, List.length_nil]
    omega

theorem parseLine_disassembleLine_label (w : MachineWord) : (parseLine (disassembleLine w)).label = none := by
  have htok := isToken_lineTokens w
  rw [disassembleLine_eq_spaced]
  cases w <;> rw [lineTokens, parseLine_spaced htok]

theorem splitLines_disassemble (ws : List MachineWord) :
    splitLines [] (disassemble ws) = (ws.map disassembleLine, []) := by
  have hlines : ∀ line ∈ ws.map disassembleLine, '\n' ∉ line := by
    intro line hline
    obtain ⟨w, -, rfl⟩ := List.mem_map.mp hline
    rw [disassembleLine_eq_spaced]
    exact newline_not_mem_spaced (isToken_lineTokens w)
  rw [← splitLines_ended hlines, List.map_map]
  rfl

/-- Words an assembler can put out are the assembly of their disassembly (30 R82). -/
theorem assemble_disassemble {p : AsmParams} {ws : List MachineWord} (hp : 18 ≤ p.maxLine)
    (hws : ∀ w ∈ ws, w.IsOutput) : assemble p (disassemble ws) = .ok ws := by
  rw [assemble_eq_ok_iff, splitLines_disassemble]
  refine ⟨[], buildTable_unlabelled p 0 [] fun line hline => ?_, rfl, (emit_eq_ok_iff _ _ _ _).mpr ?_⟩
  · obtain ⟨w, hw, rfl⟩ := List.mem_map.mp hline
    exact ⟨(length_disassembleLine_le (hws w hw)).trans hp, parseLine_disassembleLine_label w⟩
  · apply List.ext_getElem
    · simp
    · intro k hk hk'
      simpa using assembleLine_disassembleLine [] (0 + k) (hws _ (List.getElem_mem _))

/-- Settles O48: whatever assembles, or is canonical and fits, is made of words whose lines assemble back to them. -/
theorem reassemblyIsIdempotent : Obligations.ReassemblyIsIdempotent := by
  refine ⟨fun p source ws hp h => assemble_disassemble hp (isOutput_of_assemble h), fun p ws hp hinstr hfill => ?_⟩
  refine assemble_disassemble hp fun w hw => ?_
  cases w with
  | instr w => exact hinstr w hw
  | fill v => exact hfill v hw

end Sys2Proof.Machine
end

section
/-! SUPPORT. The dispatch (40 R93) and the update of `pc` (40 R95): the select is one-hot at the decoded instruction's
opcode, and an instruction that neither faults nor owns `pc` leaves `pc + 1`. -/

namespace Sys2Proof.Machine

theorem opcodeField_eq_bits (w : Word) : opcodeField w = (decode w).opcode.bits := by
  rw [Laws.decode_opcode, Laws.opcode_bits_ofBits]

@[simp] theorem signals_sel (s : State) (iw : Word) : (signals s iw).sel = selectOf (opcodeField iw) := rfl

theorem signals_ownsPc (s : State) (iw : Word) :
    (signals s iw).ownsPc = ((signals s iw).sel.getLsbD 4 || (signals s iw).sel.getLsbD 5) := rfl

/-- The select is the power of two at the opcode, which is below its width, so only bit `opcode` is 1. -/
@[simp] theorem getLsbD_selectOf (op : BitVec 3) (k : Nat) : (selectOf op).getLsbD k = decide (op.toNat = k) := by
  have hwidth : op.toNat < 8 := op.isLt
  rw [selectOf, ← BitVec.twoPow_eq, BitVec.getLsbD_twoPow, decide_eq_true hwidth, Bool.true_and]

/-- Settles O38: both numbers are the opcode, which the decoder keeps. -/
theorem dispatchSelectsOneHandler : Obligations.DispatchSelectsOneHandler := by
  intro s iw k _
  have hsel : (signals s iw).sel.getLsbD k = true ↔ (opcodeField iw).toNat = k := by simp
  exact ⟨hsel, opcodeField_eq_bits iw ▸ hsel⟩

theorem ownsPc_iff (o : Opcode) : ownsPc o = true ↔ o = .beq ∨ o = .jalr := by
  cases o <;> simp [ownsPc]

/-- The exemption table is the select's bits 4 and 5. -/
theorem selectOf_bits_ownsPc (o : Opcode) :
    ((selectOf o.bits).getLsbD 4 || (selectOf o.bits).getLsbD 5) = ownsPc o := by
  cases o <;> rfl

theorem signals_ownsPc_decode (s : State) (iw : Word) : (signals s iw).ownsPc = ownsPc (decode iw).opcode := by
  rw [signals_ownsPc, signals_sel, opcodeField_eq_bits, selectOf_bits_ownsPc]

/-- The generic increment: what neither faults nor owns `pc` leaves `pc + 1`, in whatever way it ends (40 R95). -/
theorem exec_pc_of_not_ownsPc {i : Instr} {s t : State} (h : exec i s = .next t) (hrun : t.run ≠ .faulted)
    (howns : ownsPc i.opcode = false) : t.pc = s.pc + 1 := by
  rcases exec_cases h with ⟨-, -, -, -, -, hpc⟩ | ⟨_, _, -, -, -, -, hpc, -⟩ | ⟨_, _, -, -, -, rfl, -⟩
  · exact hpc howns
  · exact hpc
  · exact absurd (raiseAddressFault_run _ _ s) hrun

/-- Settles O34: the table row by row, its signal through the select, and the three ways an instruction can end. -/
theorem pcUpdatePolicy : Obligations.PcUpdatePolicy := by
  refine ⟨ownsPc_iff, signals_ownsPc_decode, fun i s t _ h hrun howns => ?_⟩
  rw [exec_pc_of_not_ownsPc h hrun howns, BitVec.toNat_add]
  rfl

end Sys2Proof.Machine
end

section
/-! SUPPORT. The arithmetic instructions (41): an R-format result written to any destination with the generic increment,
its frame, and the R-format statement as written. -/

namespace Sys2Proof.Machine

theorem State.advance_pc_toNat (s : State) : s.advance.pc.toNat = (s.pc.toNat + 1) % 2 ^ 32 :=
  BitVec.toNat_add s.pc 1

/-- The state after an instruction that only writes `x[d]`: the written value, and the frame (10 R12, 40 R95). -/
theorem State.setX_advance_frame (s : State) (d : RegNum) (v : Word) :
    (s.setX d v).advance.x d = v ∧ (∀ r, r ≠ d → (s.setX d v).advance.x r = s.x r) ∧
      (s.setX d v).advance.pc.toNat = (s.pc.toNat + 1) % 2 ^ 32 ∧ (s.setX d v).advance.mem = s.mem ∧
      (s.setX d v).advance.run = s.run ∧ (s.setX d v).advance.fault = s.fault := by
  refine ⟨?_, fun r hr => ?_, State.advance_pc_toNat (s.setX d v), rfl, rfl, rfl⟩
  · rw [State.advance_x, State.x_setX, if_pos rfl]
  · rw [State.advance_x, State.x_setX, if_neg hr]

theorem instrText_add (a b d : RegNum) : instrText (.add a b d) =
    " add ".toList ++ natText a.toNat ++ ' ' :: natText b.toNat ++ ' ' :: natText d.toNat := by
  simp [instrText, mnemonicText, Instr.opcode]

theorem instrText_nor (a b d : RegNum) : instrText (.nor a b d) =
    " nor ".toList ++ natText a.toNat ++ ' ' :: natText b.toNat ++ ' ' :: natText d.toNat := by
  simp [instrText, mnemonicText, Instr.opcode]

/-- `alu_nor` bit by bit (41 R111). -/
theorem getLsbD_not_or (x y : Word) {i : Nat} (hi : i < 32) :
    (~~~(x ||| y)).getLsbD i = true ↔ x.getLsbD i = false ∧ y.getLsbD i = false := by
  rw [BitVec.getLsbD_not, BitVec.getLsbD_or, decide_eq_true hi, Bool.true_and, Bool.not_eq_true', Bool.or_eq_false_iff]

/-- Settles O16: the decoder's equation, the R-format's line and number, and the frame of a register write; the old
sources are read, so the destination may be one of them. -/
theorem addWritesWrappedSum : Obligations.AddWritesWrappedSum := by
  refine ⟨fun w => decode_of_add, fun a b d s => ⟨fun table addr => ?_, ?_, _, exec_add a b d s, ?_⟩⟩
  · rw [← instrText_add, assembleLine_instrText]
  · have hword := toNat_encodeR Opcode.add.bits a b d
    rwa [show Opcode.add.bits.toNat = 0 from rfl, Nat.zero_mul, Nat.zero_add] at hword
  · obtain ⟨hwritten, hframe⟩ := s.setX_advance_frame d (s.x a + s.x b)
    exact ⟨by rw [hwritten, BitVec.toNat_add], hframe⟩

/-- Settles O17: as for ADD, with the result read bit by bit. -/
theorem norWritesComplementOfOr : Obligations.NorWritesComplementOfOr := by
  refine ⟨fun w => decode_of_nor, fun a b d s => ⟨fun table addr => ?_, ?_, _, exec_nor a b d s, ?_⟩⟩
  · rw [← instrText_nor, assembleLine_instrText]
  · have hword := toNat_encodeR Opcode.nor.bits a b d
    rwa [show Opcode.nor.bits.toNat = 1 from rfl, Nat.one_mul] at hword
  · obtain ⟨hwritten, hframe⟩ := s.setX_advance_frame d (~~~(s.x a ||| s.x b))
    exact ⟨fun i hi => by rw [hwritten, getLsbD_not_or _ _ hi], hframe⟩

end Sys2Proof.Machine
end

section
/-! SUPPORT. HALT and NOOP (44): the two statements without operands, the words that are their opcode alone, and that a
stopped core takes no step. -/

namespace Sys2Proof.Machine

theorem instrText_halt : instrText .halt = " halt".toList := rfl

theorem instrText_noop : instrText .noop = " noop".toList := rfl

/-- A Halted or Faulted core takes no step (40 R90). -/
theorem stepOutcome_of_not_running {s : State} (h : s.run ≠ .running) : stepOutcome s = .noStep := by
  have hstop : s.takesStep = false := Bool.eq_false_iff.mpr fun htakes => h ((takesStep_iff s).mp htakes)
  rw [stepOutcome, hstop]
  rfl

/-- Settles O22: the decoder's equation, the O-format's line and number, and the halted state, which is not Running. -/
theorem haltStopsOnePast : Obligations.HaltStopsOnePast := by
  refine ⟨fun w => decode_of_halt, fun table addr => ?_, toNat_encodeO Opcode.halt.bits, fun s => ?_⟩
  · rw [← instrText_halt, assembleLine_instrText]
  · have hstopped : (s.advance.setRun .halted).run ≠ .running := nofun
    exact ⟨_, exec_halt s, s.advance_pc_toNat, rfl, fun _ => rfl, rfl, rfl, stepOutcome_of_not_running hstopped⟩

/-- Settles O23: as for HALT, with the generic increment as the whole effect. -/
theorem noopOnlyAdvances : Obligations.NoopOnlyAdvances := by
  refine ⟨fun w => decode_of_noop, fun table addr => ?_, toNat_encodeO Opcode.noop.bits, fun s => ?_⟩
  · rw [← instrText_noop, assembleLine_instrText]
  · exact ⟨_, exec_noop s, s.advance_pc_toNat, rfl⟩

end Sys2Proof.Machine
end

section
/-! SUPPORT. Reset and the loading of an image (70 R170 to R173): what loading answers, the fields of the state after
reset, and that memory reads the image from address 0 and 0 above it. -/

namespace Sys2Proof.Machine

/-! ### What memory reads after loading (70 R172) -/

theorem cellsAt_eq_zero_of_unlisted {cells : List (Nat × Word)} {a : Nat} (h : ∀ c ∈ cells, c.1 ≠ a) :
    cellsAt cells a = 0 := by
  induction cells with
  | nil => rfl
  | cons c rest ih =>
    obtain ⟨hhead, hrest⟩ := List.forall_mem_cons.mp h
    rw [cellsAt, if_neg hhead, ih hrest]

/-- The cells of an image laid from `i` upward list nothing below `i`. -/
theorem cellsAt_imageCells_below {a i : Nat} (h : a < i) (image : List Word) : cellsAt (imageCells i image) a = 0 :=
  cellsAt_eq_zero_of_unlisted fun _ hc => (Nat.lt_of_lt_of_le h (mem_imageCells hc).2.1).ne'

/-- A zero word is left out of the list, and its address still reads as 0. -/
theorem cellsAt_imageCells_cons (i a : Nat) (w : Word) (rest : List Word) :
    cellsAt (imageCells i (w :: rest)) a = if i = a then w else cellsAt (imageCells (i + 1) rest) a := by
  by_cases hw : w = 0
  · rw [imageCells, if_pos hw]
    split
    · next hi => rw [hw, cellsAt_imageCells_below (hi ▸ a.lt_succ_self)]
    · rfl
  · rw [imageCells, if_neg hw, cellsAt]

theorem cellsAt_imageCells (image : List Word) (i k : Nat) :
    cellsAt (imageCells i image) (i + k) = image[k]?.getD 0 := by
  induction image generalizing i k with
  | nil => rfl
  | cons w rest ih =>
    rw [cellsAt_imageCells_cons]
    cases k with
    | zero => exact if_pos rfl
    | succ k =>
      have hne : i ≠ i + (k + 1) := by omega
      have hshift : i + (k + 1) = i + 1 + k := by omega
      rw [if_neg hne, hshift, ih, List.getElem?_cons_succ]

theorem Memory.cell_ofImage (memWords : Nat) (image : List Word) (a : Nat) :
    (Memory.ofImage memWords image).cell a = image[a]?.getD 0 := by
  rw [Memory.cell, Memory.ofImage, ← cellsAt_imageCells image 0 a, Nat.zero_add]

/-! ### The state after reset (10 R27) -/

section ResetWith

variable (memWords : Nat) (image : List Word)

@[simp] theorem resetWith_pc : (resetWith memWords image).pc = 0 := rfl
@[simp] theorem resetWith_words : (resetWith memWords image).mem.words = memWords := rfl
@[simp] theorem resetWith_run : (resetWith memWords image).run = .running := rfl
@[simp] theorem resetWith_fault : (resetWith memWords image).fault = ⟨.none, 0, 0⟩ := rfl

@[simp] theorem resetWith_x (r : RegNum) : (resetWith memWords image).x r = 0 := Vector.getElem_replicate r.isLt

@[simp] theorem resetWith_cell (a : Nat) : (resetWith memWords image).mem.cell a = image[a]?.getD 0 :=
  Memory.cell_ofImage memWords image a

end ResetWith

/-! ### Loading (70 R171 to R173) -/

section Load

variable {memWords : Nat} {image : List Word}

theorem loadImage_of_le (hcap : memWordsOk memWords = true) (hfit : image.length ≤ memWords) :
    loadImage memWords image = .next (resetWith memWords image) := by
  simp [loadImage, hcap, (imageOk_iff memWords image).mpr hfit]

theorem loadImage_of_lt (hcap : memWordsOk memWords = true) (hlong : memWords < image.length) :
    loadImage memWords image = .refused .imageTooLong := by
  have hrefuse : imageOk memWords image = false :=
    Bool.eq_false_iff.mpr fun hok => Nat.not_le.mpr hlong ((imageOk_iff memWords image).mp hok)
  simp [loadImage, hcap, hrefuse]

/-- Address 0 is valid once a word fits there, so the first step executes the image's first word (70 R171). -/
theorem step_resetWith (hne : 0 < image.length) (hfit : image.length ≤ memWords) :
    step (resetWith memWords image) = exec (decode image[0]) (resetWith memWords image) := by
  have hvalid : (resetWith memWords image).mem.valid 0 = true :=
    (Memory.valid_iff _ _).mpr (Nat.lt_of_lt_of_le hne hfit)
  have hword : (resetWith memWords image).mem.cell (0 : Word).toNat = image[0] := by simp [hne]
  rw [step_eq, resetWith_run, if_pos rfl, resetWith_pc, if_pos hvalid, hword]

end Load

/-- Settles O9: an image that fits loads, and the state after reset reads it back cell by cell. -/
theorem resetLoadsImage : Obligations.ResetLoadsImage := by
  intro memWords image hcap hfit
  refine ⟨_, loadImage_of_le hcap hfit, resetWith_pc _ _, resetWith_x _ _, resetWith_words _ _, fun i hi => ?_,
    fun i hi => ?_, resetWith_run _ _, resetWith_fault _ _, fun hne => step_resetWith hne hfit⟩
  · rw [resetWith_cell, List.getElem?_eq_getElem hi, Option.getD_some]
  · rw [resetWith_cell, List.getElem?_eq_none hi, Option.getD_none]

/-- Settles O10: the capacity is admitted, so the length alone is refused. -/
theorem oversizedImageRefused : Obligations.OversizedImageRefused := fun _ _ => loadImage_of_lt

end Sys2Proof.Machine
end

section
/-! SUPPORT. Encoding (30 part A): what the decoder and the encoder say of each other, the opcode table as the encoder's
O-format words, and the sign extension of the offset. -/

namespace Sys2Proof

/-- Settles O1: the decoder reads each field where the encoder put it. -/
theorem decodeEncodeRoundTrip : Obligations.DecodeEncodeRoundTrip := decode_encode

/-- Settles O2: encoding a decoded word clears the bits its operation does not name. -/
theorem canonicalWordsAreEncodings : Obligations.CanonicalWordsAreEncodings := canonicalWord_iff

/-! ### The opcode table (30 R62) -/

/-- A row's mask is that of the opcode bits, and its match the O-format word of its operation. -/
theorem opcodeTable_rows :
    ∀ r ∈ opcodeTable, r.mask = 0x01C00000 ∧ r.matchWord = encodeO r.opcode.bits := by decide

theorem opcode_bits_injective {o o' : Opcode} (h : o.bits = o'.bits) : o = o' := by
  rw [← Laws.opcode_ofBits_bits o, h, Laws.opcode_ofBits_bits]

theorem encodeO_injective {op op' : BitVec 3} (h : encodeO op = encodeO op') : op = op' := by
  have hnum := congrArg BitVec.toNat h
  rw [toNat_encodeO, toNat_encodeO] at hnum
  exact BitVec.eq_of_toNat_eq (Nat.eq_of_mul_eq_mul_right (by decide) hnum)

/-- A row takes a word exactly when it is the row of the decoder's operation. -/
theorem takes_iff {r : OpcodeRow} (hr : r ∈ opcodeTable) (w : Word) :
    r.takes w = true ↔ r.opcode = (decode w).opcode := by
  obtain ⟨hmask, hmatch⟩ := opcodeTable_rows r hr
  have htakes : r.takes w = true ↔ encodeO (decode w).opcode.bits = encodeO r.opcode.bits := by
    rw [OpcodeRow.takes, beq_iff_eq, hmask, hmatch, ← encodeO_field, Laws.decode_opcode, Laws.opcode_bits_ofBits]
  rw [htakes]
  constructor
  · exact fun h => (opcode_bits_injective (encodeO_injective h)).symm
  · exact fun h => by rw [h]

/-- Every operation has one row. -/
theorem length_rows_of_opcode (o : Opcode) : (opcodeTable.filter (fun r => r.opcode = o)).length = 1 := by
  cases o <;> decide

/-- Settles O5: a row's test is whether it is the row of the decoder's operation, and each operation has one. -/
theorem opcodeTablePartitionsWords : Obligations.OpcodeTablePartitionsWords := by
  refine fun w => ⟨?_, fun r hr => ⟨(opcodeTable_rows r hr).1, takes_iff hr w⟩⟩
  have hfilter : opcodeTable.filter (fun r => r.takes w) =
      opcodeTable.filter (fun r => r.opcode = (decode w).opcode) :=
    List.filter_congr fun r hr => Bool.eq_iff_iff.mpr ((takes_iff hr w).trans decide_eq_true_iff.symm)
  rw [hfilter, length_rows_of_opcode]

/-- Settles O7: the eight words, evaluated. -/
theorem sampleWordsDecode : Obligations.SampleWordsDecode :=
  ⟨by decide, by decide, by decide, by decide, by decide, by decide, by decide, by decide⟩

end Sys2Proof

namespace Sys2Proof.Machine

/-- The extension keeps the signed reading (00 section 5). -/
@[simp] theorem toInt_sext32 (f : OffsetField) : (sext32 f).toInt = f.toInt :=
  BitVec.toInt_signExtend_of_le (by decide)

/-- The extended offset is its signed reading modulo `2^32` (30 R57). -/
theorem sext32_eq_ofInt (f : OffsetField) : sext32 f = BitVec.ofInt 32 f.toInt := rfl

/-- Settles O8: the top bit of the field fills the sixteen bits above it, so the signed reading stays. -/
theorem offsetIsSignExtended : Obligations.OffsetIsSignExtended := by
  intro f
  have hmsb : f.msb = f.getLsbD 15 := BitVec.msb_eq_getLsbD_last f
  have hext : (sext32 f).toNat = _ := BitVec.toNat_signExtend f
  obtain ⟨hlo, hhi⟩ := (offsetOk_iff f.toInt).mp (offsetOk_toInt f)
  have hwidth : f.toNat < 2 ^ 32 := f.isLt.trans (by decide)
  rw [BitVec.toNat_setWidth, Nat.mod_eq_of_lt hwidth, hmsb] at hext
  refine ⟨fun h => ?_, fun h => ?_, toInt_sext32 f, hlo, hhi⟩
  · rw [hext, h]
    rfl
  · rw [hext, h, Nat.add_comm]
    rfl

end Sys2Proof.Machine
end

section
/-! SUPPORT. The step of a running core (40 R101) in its four ways to end, and the claims that follow from them: which
steps fault, which halt, and that the invariant of the machine is kept (10 sections 3 and 5, 44 section 4, 60). -/

namespace Sys2Proof.Machine

variable {s t : State}

theorem Memory.valid_eq_false_iff (m : Memory) (a : Word) : m.valid a = false ↔ m.words ≤ a.toNat := by
  rw [← Bool.not_eq_true, Memory.valid_iff, Nat.not_lt]

/-- Everything a step of a running core can do: fault at its fetch, or end its instruction in one of three ways. -/
theorem step_running_cases (hrun : s.run = .running) (h : step s = .next t) :
    (s.mem.valid s.pc = false ∧ t = fetchFault s) ∨
    (s.mem.valid s.pc = true ∧
      (EndsWithoutAccess (instrAt s s.pc.toNat) s t ∨ EndsWithAccess (instrAt s s.pc.toNat) s t ∨
        EndsInFault (instrAt s s.pc.toNat) s t)) := by
  rcases step_cases h with ⟨hstop, -⟩ | ⟨-, hfetch, ht⟩ | ⟨-, hfetch, hexec⟩
  · exact absurd hrun hstop
  · exact .inl ⟨hfetch, ht⟩
  · exact .inr ⟨hfetch, exec_cases hexec⟩

/-- An instruction that makes no data access does not fault. -/
theorem EndsWithoutAccess.run_ne_faulted {i : Instr} (hrun : s.run = .running) (h : EndsWithoutAccess i s t) :
    t.run ≠ .faulted := by
  obtain ⟨-, -, -, hhalt, hother, -⟩ := h
  by_cases hi : i = .halt
  · rw [hhalt hi]; exact nofun
  · rw [hother hi, hrun]; exact nofun

/-! ### Faults (60 sections 1 to 3) -/

/-- Settles O29: both faults are the one exception entry, at an address that was found not valid. -/
theorem faultIsPrecise : Obligations.FaultIsPrecise := by
  intro s t hrun h hfault
  rcases step_running_cases hrun h with ⟨hfetch, rfl⟩ | ⟨-, hend | hend | hend⟩
  · exact ⟨.fetch, s.pc, nofun, (Memory.valid_eq_false_iff _ _).mp hfetch, rfl⟩
  · exact absurd hfault (hend.run_ne_faulted hrun)
  · obtain ⟨_, _, -, -, hkeep, -⟩ := hend
    exact absurd (hkeep.symm.trans hfault) (hrun ▸ nofun)
  · obtain ⟨k, ea, hk, -, hinvalid, rfl, -⟩ := hend
    exact ⟨k, ea, hk, (Memory.valid_eq_false_iff _ _).mp hinvalid, rfl⟩

/-- Settles O45: each way to end says whether there was a data address, and whether it was valid. -/
theorem faultOnlyOutsideMemory : Obligations.FaultOnlyOutsideMemory := by
  intro s t hrun h
  simp only [← Memory.valid_eq_false_iff]
  rcases step_running_cases hrun h with ⟨hfetch, rfl⟩ | ⟨hfetch, hend | hend | hend⟩
  · exact iff_of_true rfl (.inl hfetch)
  · have hno := hend.run_ne_faulted hrun
    obtain ⟨haddr, -⟩ := hend
    simp [hno, hfetch, haddr]
  · obtain ⟨k, ea, haddr, hvalid, hkeep, -⟩ := hend
    simp [hkeep, hrun, hfetch, haddr, hvalid]
  · obtain ⟨k, ea, -, haddr, hinvalid, rfl, -⟩ := hend
    exact iff_of_true rfl (.inr ⟨k, ea, haddr, hinvalid⟩)

/-- Settles O44: only an instruction that makes no data access can halt, and HALT alone does. -/
theorem onlyHaltHalts : Obligations.OnlyHaltHalts := by
  intro s t hrun h
  rcases step_running_cases hrun h with ⟨hfetch, rfl⟩ | ⟨hfetch, hend | hend | hend⟩
  · simp [fetchFault, hfetch]
  · obtain ⟨-, -, -, hhalt, hother, -⟩ := hend
    by_cases hi : instrAt s s.pc.toNat = .halt
    · simp [hhalt hi, hfetch, hi]
    · simp [hother hi, hrun, hi]
  · obtain ⟨_, _, -, -, hkeep, -, -, -, hi⟩ := hend
    simp [hkeep, hrun, hi]
  · obtain ⟨_, _, -, -, -, rfl, hi⟩ := hend
    simp [hi]

/-- Settles O31: the fetch fault is the exception entry at `pc`. -/
theorem fetchOutsideMemoryFaults : Obligations.FetchOutsideMemoryFaults := by
  intro s hrun hpc
  rw [step_eq, if_pos hrun, (Memory.valid_eq_false_iff _ _).mpr hpc]
  rfl

/-! ### The fetched instruction (40 section 5) -/

theorem step_of_valid (hrun : s.run = .running) (hpc : s.mem.valid s.pc = true) :
    step s = exec (instrAt s s.pc.toNat) s := by
  rw [step_eq, if_pos hrun, if_pos hpc, instrAt]

theorem step_of_fetch {iw : Word} (hrun : s.run = .running) (hfetch : fetch s = some iw) :
    step s = exec (decode iw) s := by
  rw [step, if_pos ((takesStep_iff s).mpr hrun), hfetch]

@[simp] theorem placeAtPc_run (s : State) (w : Word) : (placeAtPc s w).run = s.run := by
  rcases memWrite_cases s s.pc w with ⟨-, hw⟩ | ⟨-, hw⟩
  · rw [placeAtPc, hw]; rfl
  · rw [placeAtPc, hw]; rfl

theorem tableWord_of_lt {w : Nat} (h : w < 2 ^ 32) : tableWord 32 w = BitVec.ofNat 32 w := by
  rw [tableWord, Nat.mod_eq_of_lt h]

/-- Settles O30: the step adds nothing to the fetched instruction, and the placed word is what is fetched. -/
theorem stepRunsDecodedInstruction : Obligations.StepRunsDecodedInstruction := by
  intro s hrun hpc
  have hvalid := (Memory.valid_iff s.mem s.pc).mpr hpc
  refine ⟨step_of_valid hrun hvalid, fun w hw => ?_⟩
  rw [State.withFetchWord, tableWord_of_lt hw]
  exact step_of_fetch ((placeAtPc_run s _).trans hrun) (fetch_placeAtPc s _ hvalid)

/-! ### The bound on `pc` (10 section 3) -/

/-- Under the bound of 00 R4 the increment of a valid `pc` does not wrap (D2). -/
theorem toNat_pc_succ (hcap : memWordsOk s.mem.words = true) (hpc : s.mem.valid s.pc = true) :
    (s.pc + 1).toNat = s.pc.toNat + 1 := by
  have hlt := (Memory.valid_iff s.mem s.pc).mp hpc
  obtain ⟨-, hmax⟩ := (memWordsOk_iff s.mem.words).mp hcap
  rw [BitVec.toNat_add]
  exact Nat.mod_eq_of_lt (show s.pc.toNat + 1 < 2 ^ 32 by omega)

theorem EndsInFault.pc_eq {i : Instr} (h : EndsInFault i s t) : t.pc = s.pc := by
  obtain ⟨_, _, -, -, -, rfl, -⟩ := h
  rfl

/-- Settles O43: a faulting step leaves `pc`, any other its increment. -/
theorem executingPcDoesNotWrap : Obligations.ExecutingPcDoesNotWrap := by
  intro s t hinv hrun hpc h
  obtain ⟨-, hcap, -, -⟩ := (State.inv_iff s).mp hinv
  have hvalid := (Memory.valid_iff s.mem s.pc).mpr hpc
  have hsucc := toNat_pc_succ hcap hvalid
  refine ⟨hsucc, hpc, fun howns => ?_⟩
  rcases step_running_cases hrun h with ⟨hfetch, -⟩ | ⟨-, hend | hend | hend⟩
  · simp [hvalid] at hfetch
  · obtain ⟨-, -, -, -, -, hnext⟩ := hend
    rw [hnext howns, hsucc]
    exact hpc
  · obtain ⟨_, _, -, -, -, -, hnext, -⟩ := hend
    rw [hnext, hsucc]
    exact hpc
  · rw [hend.pc_eq]
    exact hpc.le

/-! ### The invariant -/

/-- The invariant of a running state. -/
theorem inv_of_running (hwf : s.mem.wf) (hcap : memWordsOk s.mem.words = true) (hrun : s.run = .running)
    (hfault : s.fault = FaultRecord.empty) : s.inv = true := by
  refine (State.inv_iff s).mpr ⟨hwf, hcap, ?_, ?_⟩
  · simp [recordFits, hrun, hfault]
  · simp [haltFits, hrun]

theorem fault_eq_empty_of_running (hrec : recordFits s = true) (hrun : s.run = .running) :
    s.fault = FaultRecord.empty := by
  simpa [recordFits, hrun] using hrec

theorem inv_fetchFault (hwf : s.mem.wf) (hcap : memWordsOk s.mem.words = true) (hfetch : s.mem.valid s.pc = false) :
    (fetchFault s).inv = true := by
  refine (State.inv_iff _).mpr ⟨hwf, hcap, ?_, ?_⟩
  · simp [recordFits, fetchFault, hfetch]
  · simp [haltFits, fetchFault]

/-- The data address is a function of the registers alone. -/
theorem dataAddress_raiseAddressFault (k : FaultKind) (a : Word) (s : State) (i : Instr) :
    dataAddress (raiseAddressFault k a s) i = dataAddress s i := by
  cases i <;> rfl

theorem inv_of_endsInFault (hwf : s.mem.wf) (hcap : memWordsOk s.mem.words = true) (hfetch : s.mem.valid s.pc = true)
    (h : EndsInFault (instrAt s s.pc.toNat) s t) : t.inv = true := by
  obtain ⟨k, ea, -, haddr, hinvalid, rfl, -⟩ := h
  refine (State.inv_iff _).mpr ⟨hwf, hcap, ?_, ?_⟩
  · have hinstr : instrAt (raiseAddressFault k ea s) s.pc.toNat = instrAt s s.pc.toNat := rfl
    simp [recordFits, hfetch, hinvalid, hinstr, dataAddress_raiseAddressFault, haddr]
  · simp [haltFits]

theorem inv_of_endsWithAccess {i : Instr} (hwf : s.mem.wf) (hcap : memWordsOk s.mem.words = true)
    (hrun : s.run = .running) (hempty : s.fault = FaultRecord.empty) (h : EndsWithAccess i s t) : t.inv = true := by
  obtain ⟨k, ea, -, hvalid, hkeep, hfault, -, hmem | ⟨v, hmem⟩, -⟩ := h
  · exact inv_of_running (hmem ▸ hwf) (hmem ▸ hcap) (hkeep.trans hrun) (hfault.trans hempty)
  · refine inv_of_running ?_ ?_ (hkeep.trans hrun) (hfault.trans hempty)
    · exact hmem ▸ Memory.wf_setCell hwf ((Memory.valid_iff _ _).mp hvalid) v
    · rwa [hmem, Memory.words_setCell]

/-- HALT leaves the core one past itself, the cell it was fetched from unchanged. -/
theorem haltFits_of_halt (hcap : memWordsOk s.mem.words = true) (hfetch : s.mem.valid s.pc = true)
    (hi : instrAt s s.pc.toNat = .halt) (hpc : t.pc = s.pc + 1) (hmem : t.mem = s.mem) : haltFits t = true := by
  have hlt := (Memory.valid_iff s.mem s.pc).mp hfetch
  have hsucc : t.pc.toNat = s.pc.toNat + 1 := hpc ▸ toNat_pc_succ hcap hfetch
  have hinstr : instrAt t s.pc.toNat = .halt := by rw [instrAt, hmem]; exact hi
  have hbound : s.pc.toNat + 1 ≤ s.mem.words := hlt
  simp [haltFits, hsucc, hmem, hinstr, hbound]

theorem inv_of_endsWithoutAccess (hwf : s.mem.wf) (hcap : memWordsOk s.mem.words = true) (hrun : s.run = .running)
    (hempty : s.fault = FaultRecord.empty) (hfetch : s.mem.valid s.pc = true)
    (h : EndsWithoutAccess (instrAt s s.pc.toNat) s t) : t.inv = true := by
  obtain ⟨-, hmem, hfault, hhalt, hother, hpc⟩ := h
  by_cases hi : instrAt s s.pc.toNat = .halt
  · have hrecord : recordFits t = true := by simp [recordFits, hhalt hi, hfault, hempty]
    have hnext : t.pc = s.pc + 1 := hpc (by rw [hi]; rfl)
    exact (State.inv_iff t).mpr ⟨hmem ▸ hwf, hmem ▸ hcap, hrecord, haltFits_of_halt hcap hfetch hi hnext hmem⟩
  · exact inv_of_running (hmem ▸ hwf) (hmem ▸ hcap) ((hother hi).trans hrun) (hfault.trans hempty)

/-- Settles O40: each way a step can end keeps the four parts of the invariant. -/
theorem stepKeepsInvariant : Obligations.StepKeepsInvariant := by
  intro s t hinv h
  by_cases hrun : s.run = .running
  · obtain ⟨hwf, hcap, hrec, -⟩ := (State.inv_iff s).mp hinv
    have hempty := fault_eq_empty_of_running hrec hrun
    rcases step_running_cases hrun h with ⟨hfetch, rfl⟩ | ⟨hfetch, hend | hend | hend⟩
    · exact inv_fetchFault hwf hcap hfetch
    · exact inv_of_endsWithoutAccess hwf hcap hrun hempty hfetch hend
    · exact inv_of_endsWithAccess hwf hcap hrun hempty hend
    · exact inv_of_endsInFault hwf hcap hfetch hend
  · rw [step_eq, if_neg hrun] at h
    rwa [← Host.Outcome.next.inj h]

end Sys2Proof.Machine
end

section
/-! SUPPORT. Runs (40 sections 1 and 4, 10 section 6): every instruction and every step answers, a stopped core stays as
it is, and the trace holds the states between the steps. -/

namespace Sys2Proof.Machine

variable {s t : State}

/-! ### Every step answers (40 section 4) -/

theorem exec_answers (i : Instr) (s : State) : ∃ t, exec i s = .next t := by
  cases i with
  | add a b d => exact ⟨_, exec_add a b d s⟩
  | nor a b d => exact ⟨_, exec_nor a b d s⟩
  | lw a b off =>
    cases hv : s.mem.valid (effectiveAddress (s.x a) off) with
    | true => exact ⟨_, exec_lw_valid hv⟩
    | false => exact ⟨_, exec_lw_invalid hv⟩
  | sw a b off =>
    cases hv : s.mem.valid (effectiveAddress (s.x a) off) with
    | true => exact ⟨_, exec_sw_valid hv⟩
    | false => exact ⟨_, exec_sw_invalid hv⟩
  | beq a b off => exact ⟨_, exec_beq a b off s⟩
  | jalr a b => exact ⟨_, exec_jalr a b s⟩
  | halt => exact ⟨_, exec_halt s⟩
  | noop => exact ⟨_, exec_noop s⟩

theorem step_answers (s : State) : ∃ t, step s = .next t := by
  rw [step_eq]
  split
  · split
    · exact exec_answers _ s
    · exact ⟨_, rfl⟩
  · exact ⟨_, rfl⟩

theorem stepState_of_step (h : step s = .next t) : stepState s = t := by
  rw [stepState, h]

theorem step_eq_stepState (s : State) : step s = .next (stepState s) := by
  obtain ⟨t, ht⟩ := step_answers s
  rw [stepState_of_step ht, ht]

theorem run_succ_of_step {M : Host.Core} {s t : M.State} {k : Nat} (h : M.step s = .next t) :
    M.run (k + 1) s = M.run k t := by
  rw [Host.Core.run, h]

theorem core_run_eq_runFor (s : State) (k : Nat) : Host.Core.run Sys2Proof.core k s = .next (runFor k s) := by
  induction k generalizing s with
  | zero => rfl
  | succ k ih =>
    exact (run_succ_of_step (M := Sys2Proof.core) (step_eq_stepState s)).trans (ih (stepState s))

/-- Settles O33: no meaning and no step has another answer, so a run is the iterated step. -/
theorem everyStepAnswers : Obligations.EveryStepAnswers := ⟨exec_answers, core_run_eq_runFor⟩

/-- What a state has and every step keeps, every state of a run from it has. -/
theorem runFor_induction {P : State → Prop} (hkeep : ∀ s t, P s → step s = .next t → P t) (k : Nat) (hs : P s) :
    P (runFor k s) := by
  induction k generalizing s with
  | zero => exact hs
  | succ k ih => exact ih (hkeep s _ hs (step_eq_stepState s))

/-! ### A stopped core (10 section 5) -/

theorem takesStep_of_not_running (h : s.run ≠ .running) : s.takesStep = false :=
  Bool.eq_false_iff.mpr fun htakes => h ((takesStep_iff s).mp htakes)

theorem step_of_not_running (h : s.run ≠ .running) : step s = .next s := by
  rw [step_eq, if_neg h]

theorem runFor_of_not_running (k : Nat) (h : s.run ≠ .running) : runFor k s = s := by
  induction k with
  | zero => rfl
  | succ k ih => rw [runFor, stepState_of_step (step_of_not_running h), ih]

theorem completedSteps_of_not_running (k : Nat) (h : s.run ≠ .running) : completedSteps k s = 0 := by
  cases k with
  | zero => rfl
  | succ k => rw [completedSteps, stepOutcome_of_not_running h]

theorem trace_of_not_running (k : Nat) (h : s.run ≠ .running) : trace k s = [s] := by
  cases k with
  | zero => rfl
  | succ k => rw [trace, takesStep_of_not_running h]; rfl

/-- Settles O32: a stopped core's step answers the state itself, so a run stays there and counts nothing. -/
theorem stoppedCoreKeepsState : Obligations.StoppedCoreKeepsState := by
  intro s k hstop
  refine ⟨?_, stepOutcome_of_not_running hstop, completedSteps_of_not_running k hstop⟩
  rw [core_run_eq_runFor, runFor_of_not_running k hstop]

/-! ### The trace (40 R100) -/

section RunningStep

variable (k : Nat) (hrun : s.run = .running)
include hrun

theorem trace_succ_of_running : trace (k + 1) s = s :: trace k (stepState s) := by
  rw [trace, if_pos ((takesStep_iff s).mpr hrun)]

theorem completedSteps_succ_of_faulted (hfault : (stepState s).run = .faulted) : completedSteps (k + 1) s = 0 := by
  have houtcome : stepOutcome s = .faulted (stepState s) := by
    simp [stepOutcome, (takesStep_iff s).mpr hrun, hfault]
  rw [completedSteps, houtcome]

theorem completedSteps_succ_of_completed (hfault : (stepState s).run ≠ .faulted) :
    completedSteps (k + 1) s = completedSteps k (stepState s) + 1 := by
  have houtcome : stepOutcome s = .completed (stepState s) := by
    simp [stepOutcome, (takesStep_iff s).mpr hrun, hfault]
  rw [completedSteps, houtcome]

end RunningStep

/-- Settles O46: a step adds its state to the trace, and is counted unless it faults, which ends the run. -/
theorem traceCountsSteps : Obligations.TraceCountsSteps := by
  intro s k
  induction k generalizing s with
  | zero =>
    intro hs
    simp [trace, completedSteps, runFor, hs]
  | succ k ih =>
    intro hs
    by_cases hrun : s.run = .running
    · rw [trace_succ_of_running k hrun, List.length_cons, runFor]
      by_cases hfault : (stepState s).run = .faulted
      · have hstop : (stepState s).run ≠ .running := hfault ▸ nofun
        rw [completedSteps_succ_of_faulted k hrun hfault, trace_of_not_running k hstop, runFor_of_not_running k hstop,
          if_pos hfault]
        rfl
      · rw [completedSteps_succ_of_completed k hrun hfault, ih (stepState s) hfault]
        omega
    · rw [trace_of_not_running _ hrun, completedSteps_of_not_running _ hrun, runFor_of_not_running _ hrun, if_neg hs]
      rfl

end Sys2Proof.Machine
end

section
/-! SUPPORT. The reset state and the runs from it (10 section 8, 70 sections 1, 2 and 6): its values, the invariant, and
the status port (10 section 7). -/

namespace Sys2Proof.Machine

/-! ### Reset and the invariant -/

theorem reset_eq_resetWith : State.reset = resetWith Config.memWordsDefault [] := rfl

theorem memWordsOk_default : memWordsOk Config.memWordsDefault = true := by decide

theorem inv_resetWith {memWords : Nat} {image : List Word} (hcap : memWordsOk memWords = true)
    (hfit : image.length ≤ memWords) : (resetWith memWords image).inv = true :=
  inv_of_running (Memory.wf_ofImage hfit) hcap (resetWith_run _ _) (resetWith_fault _ _)

/-- Loading answers a state only for an admitted capacity and an image that fits. -/
theorem loadImage_eq_next {memWords : Nat} {image : List Word} {t : State} (h : loadImage memWords image = .next t) :
    memWordsOk memWords = true ∧ image.length ≤ memWords ∧ t = resetWith memWords image := by
  cases hcap : memWordsOk memWords with
  | false => simp [loadImage, hcap] at h
  | true =>
    rcases Nat.lt_or_ge memWords image.length with hlong | hfit
    · simp [loadImage_of_lt hcap hlong] at h
    · rw [loadImage_of_le hcap hfit] at h
      exact ⟨rfl, hfit, (Host.Outcome.next.inj h).symm⟩

/-- Settles O41: `State.reset` is the reset with an empty image, and all that loads is admitted and fits. -/
theorem resetMeetsInvariant : Obligations.ResetMeetsInvariant := by
  refine ⟨?_, fun memWords image t h => ?_⟩
  · exact reset_eq_resetWith ▸ inv_resetWith memWordsOk_default (Nat.zero_le _)
  · obtain ⟨hcap, hfit, rfl⟩ := loadImage_eq_next h
    exact inv_resetWith hcap hfit

theorem exec_words {i : Instr} {s t : State} (h : exec i s = .next t) : t.mem.words = s.mem.words := by
  rcases exec_cases h with ⟨-, hmem, -⟩ | ⟨_, _, -, -, -, -, -, hmem | ⟨v, hmem⟩, -⟩ | ⟨_, _, -, -, -, rfl, -⟩
  · rw [hmem]
  · rw [hmem]
  · rw [hmem, Memory.words_setCell]
  · rfl

theorem step_words {s t : State} (h : step s = .next t) : t.mem.words = s.mem.words := by
  rcases step_cases h with ⟨-, rfl⟩ | ⟨-, -, rfl⟩ | ⟨-, -, hexec⟩
  · rfl
  · rfl
  · exact exec_words hexec

/-- Settles O42: the invariant holds after loading and every step keeps it, and the length of memory too. -/
theorem runsKeepInvariant : Obligations.RunsKeepInvariant := by
  intro memWords image t u k hload hrun
  obtain ⟨hcap, hfit, rfl⟩ := loadImage_eq_next hload
  rw [core_run_eq_runFor] at hrun
  cases hrun
  constructor
  · exact runFor_induction (P := fun s => s.inv = true) stepKeepsInvariant k (inv_resetWith hcap hfit)
  · exact runFor_induction (P := fun s => s.mem.words = memWords) (fun s t hs h => (step_words h).trans hs) k
      (resetWith_words memWords image)

/-- Settles O14: reset reads nothing of the old state but the length of its memory. -/
theorem resetRestartsAnyState : Obligations.ResetRestartsAnyState := by
  intro s image hinv hfit
  obtain ⟨-, hcap, -, -⟩ := (State.inv_iff s).mp hinv
  have hload := loadImage_of_le hcap hfit
  refine ⟨_, hload, rfl, rfl, rfl, inv_resetWith hcap hfit, fun s' hwords => ?_⟩
  rw [assertReset, hwords, hload]

/-- Settles O11: the values are those of a reset with an empty image. -/
theorem resetStateValues : Obligations.ResetStateValues := by
  rw [Obligations.ResetStateValues, reset_eq_resetWith]
  exact ⟨resetWith_pc _ _, resetWith_x _ _, resetWith_cell _ _, resetWith_run _ _, resetWith_fault _ _,
    loadImage_of_le memWordsOk_default (Nat.zero_le _)⟩

/-! ### The status port (10 sections 5 and 7) -/

theorem RunState.code_injective {r r' : RunState} (h : r.code = r'.code) : r = r' := by
  cases r <;> cases r' <;> revert h <;> decide

theorem runPort_eq_code_iff (s : State) (r : RunState) : s.runPort = r.code ↔ s.run = r :=
  ⟨fun h => RunState.code_injective h, fun h => congrArg RunState.code h⟩

/-- Settles O15: each run state has its own code, and each fault leaves its kind, `pc` and address in the record. -/
theorem statusPortCodes : Obligations.StatusPortCodes := fun s =>
  ⟨runPort_eq_code_iff s .running, runPort_eq_code_iff s .halted, runPort_eq_code_iff s .faulted,
    fun _ => ⟨rfl, rfl, rfl⟩, rfl⟩

end Sys2Proof.Machine
end

section
/-! SUPPORT. The instructions one by one (41 to 43): the signed readings of their sums, LW, SW, BEQ and JALR with their
frames, and what all eight leave unchanged (10 section 2). -/

namespace Sys2Proof.Machine

variable {s t : State} {i : Instr}

/-! ### Signed readings (41 section 3, 42 section 1, 43 section 1) -/

/-- The pattern of an integer read unsigned is the integer modulo `2^32`. -/
theorem toNat_ofInt_word (v : Int) : ((BitVec.ofInt 32 v).toNat : Int) = v % 2 ^ 32 := by
  rw [BitVec.toNat_ofInt]
  exact Int.toNat_of_nonneg (Int.emod_nonneg v (by decide))

theorem effectiveAddress_eq_ofInt (base : Word) (off : OffsetField) :
    effectiveAddress base off = BitVec.ofInt 32 (base.toInt + off.toInt) := by
  rw [effectiveAddress, sext32_eq_ofInt, BitVec.ofInt_add, BitVec.ofInt_toInt]

theorem branchTarget_eq_ofInt (pc : Word) (off : OffsetField) :
    branchTarget pc off = BitVec.ofInt 32 ((pc.toNat : Int) + 1 + off.toInt) := by
  rw [branchTarget, sext32_eq_ofInt, BitVec.ofInt_add, BitVec.ofInt_add, BitVec.ofInt_natCast, BitVec.ofNat_toNat,
    BitVec.setWidth_eq]
  rfl

/-- Settles O24: the wrapped sum is the same pattern for both readings. -/
theorem addAgreesWithSignedReading : Obligations.AddAgreesWithSignedReading := by
  intro a b d s t h
  cases h
  have hsum : ((s.setX d (s.x a + s.x b)).advance.x d).toInt = ((s.x a).toInt + (s.x b).toInt).bmod (2 ^ 32) := by
    rw [State.advance_x, State.x_setX, if_pos rfl, BitVec.toInt_add]
  refine ⟨hsum, fun hlo hhi => hsum.trans (Int.bmod_eq_of_le ?_ ?_)⟩
  · omega
  · omega

/-- Settles O25: a sum outside memory wraps to an address above the bound of `MEMWORDS`. -/
theorem effectiveAddressIsSignedSum : Obligations.EffectiveAddressIsSignedSum := by
  intro m base off hcap
  obtain ⟨-, hmax⟩ := (memWordsOk_iff m.words).mp hcap
  obtain ⟨hofflo, hoffhi⟩ := (offsetOk_iff _).mp (offsetOk_toInt off)
  have hbaselo : -2147483648 ≤ base.toInt := BitVec.le_toInt base
  have hbasehi : base.toInt < 2147483648 := BitVec.toInt_lt
  have hea : ((effectiveAddress base off).toNat : Int) = (base.toInt + off.toInt) % 4294967296 := by
    rw [effectiveAddress_eq_ofInt]
    exact toNat_ofInt_word _
  rw [Memory.valid_iff]
  constructor
  · omega
  · omega

/-! ### LW, SW, BEQ and JALR -/

/-- Settles O18: a valid address is a register write of its cell, any other the exception entry. -/
theorem lwLoadsOrFaults : Obligations.LwLoadsOrFaults := fun _ b _ s =>
  ⟨fun hvalid => ⟨_, exec_lw_valid hvalid, s.setX_advance_frame b _⟩, fun hinvalid => exec_lw_invalid hinvalid⟩

/-- Settles O19: a valid address is one cell written, any other the exception entry. -/
theorem swStoresOrFaults : Obligations.SwStoresOrFaults := by
  refine fun a b off s => ⟨fun hvalid => ?_, fun hinvalid => exec_sw_invalid hinvalid⟩
  refine ⟨_, exec_sw_valid hvalid, ?_, fun n hn => ?_, rfl, fun _ => rfl, s.advance_pc_toNat, rfl, rfl⟩
  · rw [State.advance_mem, Memory.cell_setCell, if_pos rfl]
  · rw [State.advance_mem, Memory.cell_setCell, if_neg hn]

/-- Settles O20: both targets are written to `pc` alone. -/
theorem beqChangesOnlyPc : Obligations.BeqChangesOnlyPc := by
  refine fun a b off s => ⟨_, exec_beq a b off s, fun heq => ?_, fun hne => ?_, rfl⟩
  · rw [State.setPc_pc, if_pos heq, branchTarget_eq_ofInt, toNat_ofInt_word]
  · rw [State.setPc_pc, if_neg hne]
    exact s.advance_pc_toNat

/-- Settles O21: the link is written as a register, and the jump reads the registers after it. -/
theorem jalrLinksThenJumps : Obligations.JalrLinksThenJumps := by
  refine fun a b s => ⟨_, exec_jalr a b s, ?_, fun r hr => ?_, fun hne => ?_, fun heq => ?_, rfl, rfl, rfl⟩
  · rw [State.setPc_x, State.x_setX, if_pos rfl]
    exact s.advance_pc_toNat
  · rw [State.setPc_x, State.x_setX, if_neg hr]
  · rw [State.setPc_pc, if_neg hne]
  · rw [State.setPc_pc, if_pos heq]
    exact s.advance_pc_toNat

/-! ### A store and the read after it (20 sections 4 and 8) -/

/-- Settles O36: the store changes no register, so the load's address is the cell just written. -/
theorem loadAfterStore : Obligations.LoadAfterStore := by
  intro a b d off s hvalid
  refine ⟨_, _, exec_sw_valid hvalid, exec_lw_valid hvalid, ?_, rfl⟩
  simp

/-- Settles O35: the next step fetches at `pc + 1`, the cell just written. -/
theorem storedWordIsFetchedNext : Obligations.StoredWordIsFetchedNext := by
  intro s a b off hrun hpc hinstr hea hnext
  have hvalid : s.mem.valid (effectiveAddress (s.x a) off) = true := hea ▸ hnext
  have hstep : step s = exec (.sw a b off) s := by rw [step_of_valid hrun hpc, instrAt, hinstr]
  refine ⟨_, hstep.trans (exec_sw_valid hvalid), rfl, ?_⟩
  rw [hea]
  refine (step_of_valid ?_ ?_).trans ?_
  · exact hrun
  · exact hnext
  · simp [instrAt]

/-! ### Frames (10 section 2) -/

/-- An instruction changes no register but the one it writes. -/
theorem exec_x_of_not_written (h : exec i s = .next t) {r : RegNum} (hr : registerWritten i ≠ some r) :
    t.x r = s.x r := by
  have hother {d : RegNum} (hd : some d ≠ some r) (v : Word) : (s.setX d v).x r = s.x r := by
    rw [State.x_setX, if_neg fun e => hd (congrArg some e.symm)]
  cases i with
  | add a b d => cases h; exact hother hr _
  | nor a b d => cases h; exact hother hr _
  | lw a b off =>
    cases hv : s.mem.valid (effectiveAddress (s.x a) off) with
    | true => rw [exec_lw_valid hv] at h; cases h; exact hother hr _
    | false => rw [exec_lw_invalid hv] at h; cases h; rfl
  | sw a b off =>
    cases hv : s.mem.valid (effectiveAddress (s.x a) off) with
    | true => rw [exec_sw_valid hv] at h; cases h; rfl
    | false => rw [exec_sw_invalid hv] at h; cases h; rfl
  | beq a b off => cases h; rfl
  | jalr a b => cases h; exact hother hr _
  | halt => cases h; rfl
  | noop => cases h; rfl

/-- Only SW changes memory. -/
theorem exec_mem_of_not_sw (h : exec i s = .next t) (hi : ∀ a b off, i ≠ .sw a b off) : t.mem = s.mem := by
  cases i with
  | lw a b off =>
    cases hv : s.mem.valid (effectiveAddress (s.x a) off) with
    | true => rw [exec_lw_valid hv] at h; cases h; rfl
    | false => rw [exec_lw_invalid hv] at h; cases h; rfl
  | sw a b off => exact absurd rfl (hi a b off)
  | add a b d => cases h; rfl
  | nor a b d => cases h; rfl
  | beq a b off => cases h; rfl
  | jalr a b => cases h; rfl
  | halt => cases h; rfl
  | noop => cases h; rfl

/-- SW changes no cell but the one at its effective address. -/
theorem exec_sw_cell_of_ne {a b : RegNum} {off : OffsetField} {n : Nat} (h : exec (.sw a b off) s = .next t)
    (hn : n ≠ (effectiveAddress (s.x a) off).toNat) : t.mem.cell n = s.mem.cell n := by
  cases hv : s.mem.valid (effectiveAddress (s.x a) off) with
  | true =>
    rw [exec_sw_valid hv] at h
    cases h
    rw [State.advance_mem, Memory.cell_setCell, if_neg hn]
  | false =>
    rw [exec_sw_invalid hv] at h
    cases h
    rfl

theorem exec_cell_of_not_stored {n : Nat} (h : exec i s = .next t)
    (hn : ∀ a b off, i = .sw a b off → n ≠ (effectiveAddress (s.x a) off).toNat) : t.mem.cell n = s.mem.cell n := by
  by_cases hsw : ∃ a b off, i = .sw a b off
  · obtain ⟨a, b, off, rfl⟩ := hsw
    exact exec_sw_cell_of_ne h (hn a b off rfl)
  · rw [exec_mem_of_not_sw h fun a b off e => hsw ⟨a, b, off, e⟩]

theorem exec_run_cases (h : exec i s = .next t) : t.run = s.run ∨ (i = .halt ∧ t.run = .halted) ∨ t.run = .faulted := by
  rcases exec_cases h with ⟨-, -, -, hhalt, hother, -⟩ | ⟨_, _, -, -, hkeep, -⟩ | ⟨_, _, -, -, -, rfl, -⟩
  · by_cases hi : i = .halt
    · exact .inr (.inl ⟨hi, hhalt hi⟩)
    · exact .inl (hother hi)
  · exact .inl hkeep
  · exact .inr (.inr rfl)

theorem exec_fault_cases (h : exec i s = .next t) : t.fault = s.fault ∨ t.run = .faulted := by
  rcases exec_cases h with ⟨-, -, hkeep, -⟩ | ⟨_, _, -, -, -, hkeep, -⟩ | ⟨_, _, -, -, -, rfl, -⟩
  · exact .inl hkeep
  · exact .inl hkeep
  · exact .inr rfl

/-- Settles O27: the frames of the registers, of memory, of `run` and of the record. -/
theorem instructionFrame : Obligations.InstructionFrame := fun _ _ _ h =>
  ⟨fun _ => exec_x_of_not_written h, fun _ => exec_cell_of_not_stored h, exec_words h, exec_run_cases h,
    exec_fault_cases h⟩

end Sys2Proof.Machine
end

section
/-! SUPPORT. What an instruction reads (10 section 2): two states that agree on all that is no register and on the
registers the instruction reads end alike. -/

namespace Sys2Proof.Machine

/-- Two states agree on all that is no register. -/
structure AgreeOutsideRegisters (s s' : State) : Prop where
  pc : s.pc = s'.pc
  mem : s.mem = s'.mem
  run : s.run = s'.run
  fault : s.fault = s'.fault

/-- Two states after the same instruction, which writes this register, are alike. -/
def EndsAlike (written : Option RegNum) (t t' : State) : Prop :=
  AgreeOutsideRegisters t t' ∧ (t.run ≠ .faulted → ∀ r, written = some r → t.x r = t'.x r)

section Agree

variable {s s' : State} (hs : AgreeOutsideRegisters s s')
include hs

theorem AgreeOutsideRegisters.setX (d : RegNum) (v : Word) : AgreeOutsideRegisters (s.setX d v) (s'.setX d v) :=
  ⟨hs.pc, hs.mem, hs.run, hs.fault⟩

theorem AgreeOutsideRegisters.setPc (v : Word) : AgreeOutsideRegisters (s.setPc v) (s'.setPc v) :=
  ⟨rfl, hs.mem, hs.run, hs.fault⟩

theorem AgreeOutsideRegisters.advance : AgreeOutsideRegisters s.advance s'.advance :=
  ⟨congrArg (· + 1) hs.pc, hs.mem, hs.run, hs.fault⟩

theorem AgreeOutsideRegisters.setRun (r : RunState) : AgreeOutsideRegisters (s.setRun r) (s'.setRun r) :=
  ⟨hs.pc, hs.mem, rfl, hs.fault⟩

theorem AgreeOutsideRegisters.withMem (m : Memory) :
    AgreeOutsideRegisters { s with mem := m } { s' with mem := m } :=
  ⟨hs.pc, rfl, hs.run, hs.fault⟩

theorem AgreeOutsideRegisters.setX_alike (d : RegNum) (v : Word) :
    EndsAlike (some d) (s.setX d v).advance (s'.setX d v).advance := by
  refine ⟨(hs.setX d v).advance, fun _ r hr => ?_⟩
  cases hr
  simp

theorem AgreeOutsideRegisters.fault_alike (written : Option RegNum) (k : FaultKind) (a : Word) :
    EndsAlike written (raiseAddressFault k a s) (raiseAddressFault k a s') := by
  refine ⟨⟨hs.pc, hs.mem, rfl, ?_⟩, fun hrun => absurd rfl hrun⟩
  rw [raiseAddressFault_fault, raiseAddressFault_fault, hs.pc]

end Agree

/-- An instruction that writes no register only has to end in states that agree outside them. -/
theorem AgreeOutsideRegisters.alike_of_none {t t' : State} (h : AgreeOutsideRegisters t t') : EndsAlike none t t' :=
  ⟨h, fun _ _ hr => nomatch hr⟩

theorem exec_alike {i : Instr} {s s' t t' : State} (hs : AgreeOutsideRegisters s s')
    (hreads : ∀ r ∈ registersRead i, s.x r = s'.x r) (h : exec i s = .next t) (h' : exec i s' = .next t') :
    EndsAlike (registerWritten i) t t' := by
  have hpc := hs.pc
  have hmem := hs.mem
  cases i with
  | add a b d =>
    have ha := hreads a (by simp [registersRead])
    have hb := hreads b (by simp [registersRead])
    rw [exec_add] at h h'
    cases h
    cases h'
    rw [ha, hb]
    exact hs.setX_alike d _
  | nor a b d =>
    have ha := hreads a (by simp [registersRead])
    have hb := hreads b (by simp [registersRead])
    rw [exec_nor] at h h'
    cases h
    cases h'
    rw [ha, hb]
    exact hs.setX_alike d _
  | lw a b off =>
    have ha := hreads a (by simp [registersRead])
    cases hv : s.mem.valid (effectiveAddress (s.x a) off) with
    | true =>
      rw [exec_lw_valid hv] at h
      rw [hmem, ha] at h hv
      rw [exec_lw_valid hv] at h'
      cases h
      cases h'
      exact hs.setX_alike b _
    | false =>
      rw [exec_lw_invalid hv] at h
      rw [ha] at h
      rw [hmem, ha] at hv
      rw [exec_lw_invalid hv] at h'
      cases h
      cases h'
      exact hs.fault_alike _ .load _
  | sw a b off =>
    have ha := hreads a (by simp [registersRead])
    have hb := hreads b (by simp [registersRead])
    cases hv : s.mem.valid (effectiveAddress (s.x a) off) with
    | true =>
      rw [exec_sw_valid hv] at h
      rw [hmem, ha] at hv
      rw [exec_sw_valid hv] at h'
      cases h
      cases h'
      rw [hmem, ha, hb]
      exact (hs.withMem _).advance.alike_of_none
    | false =>
      rw [exec_sw_invalid hv] at h
      rw [hmem, ha] at hv
      rw [exec_sw_invalid hv] at h'
      cases h
      cases h'
      rw [ha]
      exact hs.fault_alike _ .store _
  | beq a b off =>
    have ha := hreads a (by simp [registersRead])
    have hb := hreads b (by simp [registersRead])
    rw [exec_beq] at h h'
    cases h
    cases h'
    rw [ha, hb, hpc]
    exact (hs.setPc _).alike_of_none
  | jalr a b =>
    have ha := hreads a (by simp [registersRead])
    rw [exec_jalr] at h h'
    cases h
    cases h'
    rw [ha, hpc]
    refine ⟨(hs.setX b _).setPc _, fun _ r hr => ?_⟩
    cases hr
    simp
  | halt =>
    cases h
    cases h'
    exact (hs.advance.setRun .halted).alike_of_none
  | noop =>
    cases h
    cases h'
    exact hs.advance.alike_of_none

/-- Settles O28: the states agree outside the registers, and the instruction reads what they agree on. -/
theorem readsOnlyNamedRegisters : Obligations.ReadsOnlyNamedRegisters := by
  intro i s s' t t' hrun hrun' hpc hmem hfault hreads h h'
  obtain ⟨⟨hpc', hmem', hrunEnd, hfault'⟩, hwritten⟩ :=
    exec_alike ⟨hpc, hmem, hrun.trans hrun'.symm, hfault⟩ hreads h h'
  exact ⟨hpc', hmem', hrunEnd, hfault', hwritten⟩

end Sys2Proof.Machine
end

section
/-! SUPPORT. The core as hardware: the datapath (40 sections 2 and 4) makes the step, and the memory port (20 section 4)
makes the step's accesses. -/

namespace Sys2Proof.Machine

variable {s t : State}

/-! ### The datapath (40 section 2) -/

@[simp] theorem signals_opcode (s : State) (iw : Word) : (signals s iw).opcode = opcodeField iw := rfl

@[simp] theorem signals_eaOk (s : State) (iw : Word) :
    (signals s iw).eaOk = s.mem.valid (effectiveAddress (s.x (regAField iw)) (offsetFieldOf iw)) := rfl

@[simp] theorem signals_eq (s : State) (iw : Word) :
    (signals s iw).eq = (s.x (regAField iw) == s.x (regBField iw)) := rfl

@[simp] theorem signals_regA (s : State) (iw : Word) : (signals s iw).regA = regAField iw := rfl

@[simp] theorem signals_regB (s : State) (iw : Word) : (signals s iw).regB = regBField iw := rfl

@[simp] theorem signals_rb (s : State) (iw : Word) : (signals s iw).rb = s.x (regBField iw) := rfl

@[simp] theorem signals_ea (s : State) (iw : Word) :
    (signals s iw).ea = effectiveAddress (s.x (regAField iw)) (offsetFieldOf iw) := rfl

/-- What the units make of a step that raises no fault: the last branch of `datapathStep`. -/
def unitsEffect (s : State) (g : Signals) : State :=
  { (writeBack s g (controlRow g)) with
    mem := if (controlRow g).memWr then s.mem.setCell g.ea.toNat g.rb else s.mem
    pc := nextPc g (controlRow g)
    run := if (controlRow g).halt then .halted else s.run }

theorem datapathStep_of_not_running (h : s.run ≠ .running) : datapathStep s = s := by
  rw [datapathStep, takesStep_of_not_running h]
  rfl

theorem datapathStep_of_invalid (hrun : s.run = .running) (hpc : s.mem.valid s.pc = false) :
    datapathStep s = fetchFault s := by
  rw [datapathStep, (takesStep_iff s).mpr hrun, hpc]
  rfl

theorem bits_toNat_eq_two_iff (o : Opcode) : o.bits.toNat = 2 ↔ o = .lw := by
  cases o <;> decide

theorem bits_toNat_eq_three_iff (o : Opcode) : o.bits.toNat = 3 ↔ o = .sw := by
  cases o <;> decide

/-- A fetched word's step: the fault of an LW or SW whose address is not valid, or the units' effect (40 R94). -/
theorem datapathStep_of_valid {iw : Word} (hrun : s.run = .running) (hpc : s.mem.valid s.pc = true)
    (hiw : s.mem.cell s.pc.toNat = iw) :
    datapathStep s =
      if (decode iw).opcode = .lw ∧ (signals s iw).eaOk = false then raiseAddressFault .load (signals s iw).ea s
      else if (decode iw).opcode = .sw ∧ (signals s iw).eaOk = false then raiseAddressFault .store (signals s iw).ea s
      else unitsEffect s (signals s iw) := by
  have hlw : ((signals s iw).sel.getLsbD 2 && !(signals s iw).eaOk) = true ↔
      (decode iw).opcode = .lw ∧ (signals s iw).eaOk = false := by
    rw [signals_sel, getLsbD_selectOf, opcodeField_eq_bits, Bool.and_eq_true, decide_eq_true_iff,
      bits_toNat_eq_two_iff, Bool.not_eq_true']
  have hsw : ((signals s iw).sel.getLsbD 3 && !(signals s iw).eaOk) = true ↔
      (decode iw).opcode = .sw ∧ (signals s iw).eaOk = false := by
    rw [signals_sel, getLsbD_selectOf, opcodeField_eq_bits, Bool.and_eq_true, decide_eq_true_iff,
      bits_toNat_eq_three_iff, Bool.not_eq_true']
  rw [datapathStep, (takesStep_iff s).mpr hrun, hpc, hiw]
  simp only [← hlw, ← hsw]
  rfl

section Rows

variable {iw : Word}

theorem unitsEffect_add (h : opcodeField iw = Opcode.add.bits) :
    unitsEffect s (signals s iw) =
      (s.setX (destRegField iw) (s.x (regAField iw) + s.x (regBField iw))).advance := by
  simp only [unitsEffect, controlRow, signals_opcode, opcode_eq_of_opcodeField h]
  rfl

theorem unitsEffect_nor (h : opcodeField iw = Opcode.nor.bits) :
    unitsEffect s (signals s iw) =
      (s.setX (destRegField iw) (~~~(s.x (regAField iw) ||| s.x (regBField iw)))).advance := by
  simp only [unitsEffect, controlRow, signals_opcode, opcode_eq_of_opcodeField h]
  rfl

theorem unitsEffect_lw (h : opcodeField iw = Opcode.lw.bits)
    (hv : s.mem.valid (effectiveAddress (s.x (regAField iw)) (offsetFieldOf iw)) = true) :
    unitsEffect s (signals s iw) =
      (s.setX (regBField iw)
        (s.mem.cell (effectiveAddress (s.x (regAField iw)) (offsetFieldOf iw)).toNat)).advance := by
  simp only [unitsEffect, controlRow, signals_opcode, opcode_eq_of_opcodeField h, signals_eaOk, hv]
  rfl

theorem unitsEffect_sw (h : opcodeField iw = Opcode.sw.bits)
    (hv : s.mem.valid (effectiveAddress (s.x (regAField iw)) (offsetFieldOf iw)) = true) :
    unitsEffect s (signals s iw) =
      { s with mem := s.mem.setCell (effectiveAddress (s.x (regAField iw)) (offsetFieldOf iw)).toNat
                (s.x (regBField iw)) }.advance := by
  simp only [unitsEffect, controlRow, signals_opcode, opcode_eq_of_opcodeField h, signals_eaOk, hv]
  rfl

theorem unitsEffect_beq (h : opcodeField iw = Opcode.beq.bits) :
    unitsEffect s (signals s iw) =
      s.setPc (if s.x (regAField iw) = s.x (regBField iw) then branchTarget s.pc (offsetFieldOf iw) else s.pc + 1) := by
  simp only [unitsEffect, controlRow, signals_opcode, opcode_eq_of_opcodeField h, signals_eq, beq_iff_eq]
  split
  · rfl
  · rfl

theorem unitsEffect_jalr (h : opcodeField iw = Opcode.jalr.bits) :
    unitsEffect s (signals s iw) =
      (s.setX (regBField iw) (s.pc + 1)).setPc
        (if regAField iw = regBField iw then s.pc + 1 else s.x (regAField iw)) := by
  simp only [unitsEffect, controlRow, signals_opcode, opcode_eq_of_opcodeField h, signals_regA, signals_regB,
    beq_iff_eq]
  split
  · rfl
  · rfl

theorem unitsEffect_halt (h : opcodeField iw = Opcode.halt.bits) :
    unitsEffect s (signals s iw) = s.advance.setRun .halted := by
  simp only [unitsEffect, controlRow, signals_opcode, opcode_eq_of_opcodeField h]
  rfl

theorem unitsEffect_noop (h : opcodeField iw = Opcode.noop.bits) : unitsEffect s (signals s iw) = s.advance := by
  simp only [unitsEffect, controlRow, signals_opcode, opcode_eq_of_opcodeField h]
  rfl

end Rows

/-- The fetched instruction's effect is what the units make, one row of the table for each opcode. -/
theorem exec_eq_datapathStep (hrun : s.run = .running) (hpc : s.mem.valid s.pc = true) :
    exec (instrAt s s.pc.toNat) s = .next (datapathStep s) := by
  obtain ⟨iw, hiw⟩ : ∃ iw, s.mem.cell s.pc.toNat = iw := ⟨_, rfl⟩
  have hop := opcodeField_eq_bits iw
  rw [instrAt, datapathStep_of_valid hrun hpc hiw, hiw]
  cases ho : (decode iw).opcode with
  | add => rw [ho] at hop; simp [decode_of_add hop, exec_add, unitsEffect_add hop]
  | nor => rw [ho] at hop; simp [decode_of_nor hop, exec_nor, unitsEffect_nor hop]
  | lw =>
    rw [ho] at hop
    rw [decode_of_lw hop]
    cases hv : s.mem.valid (effectiveAddress (s.x (regAField iw)) (offsetFieldOf iw)) with
    | true => simp [exec_lw_valid hv, unitsEffect_lw hop hv, hv]
    | false => simp [exec_lw_invalid hv, hv]
  | sw =>
    rw [ho] at hop
    rw [decode_of_sw hop]
    cases hv : s.mem.valid (effectiveAddress (s.x (regAField iw)) (offsetFieldOf iw)) with
    | true => simp [exec_sw_valid hv, unitsEffect_sw hop hv, hv]
    | false => simp [exec_sw_invalid hv, hv]
  | beq => rw [ho] at hop; simp [decode_of_beq hop, exec_beq, unitsEffect_beq hop]
  | jalr => rw [ho] at hop; simp [decode_of_jalr hop, exec_jalr, unitsEffect_jalr hop]
  | halt => rw [ho] at hop; simp [decode_of_halt hop, exec_halt, unitsEffect_halt hop]
  | noop => rw [ho] at hop; simp [decode_of_noop hop, exec_noop, unitsEffect_noop hop]

/-- Settles O37: a stopped core, a fetch outside memory, and a fetched instruction. -/
theorem datapathRefinesStep : Obligations.DatapathRefinesStep := by
  intro s
  by_cases hrun : s.run = .running
  · cases hpc : s.mem.valid s.pc with
    | true => rw [step_of_valid hrun hpc, exec_eq_datapathStep hrun hpc]
    | false => rw [step_eq, if_pos hrun, hpc, datapathStep_of_invalid hrun hpc]; rfl
  · rw [step_of_not_running hrun, datapathStep_of_not_running hrun]

/-! ### The memory port (20 section 4) -/

/-- The data access of an instruction: a read for LW and a write for SW, where the address is valid. -/
def dataAccess (s : State) : Instr → List MemAccess
  | .lw a _ off =>
    if s.mem.valid (effectiveAddress (s.x a) off) then [.read (effectiveAddress (s.x a) off)] else []
  | .sw a b off =>
    if s.mem.valid (effectiveAddress (s.x a) off) then [.write (effectiveAddress (s.x a) off) (s.x b)] else []
  | .add _ _ _ => []
  | .nor _ _ _ => []
  | .beq _ _ _ => []
  | .jalr _ _ => []
  | .halt => []
  | .noop => []

theorem dataAccess_of_no_address {i : Instr} (h : dataAddress s i = none) : dataAccess s i = [] := by
  cases i with
  | lw a b off => cases h
  | sw a b off => cases h
  | _ => rfl

theorem dataAccess_of_invalid {i : Instr} {k : FaultKind} {ea : Word} (h : dataAddress s i = some (k, ea))
    (hv : s.mem.valid ea = false) : dataAccess s i = [] := by
  cases i with
  | lw a b off => cases h; simp [dataAccess, hv]
  | sw a b off => cases h; simp [dataAccess, hv]
  | _ => rfl

theorem accesses_of_no_fetch (h : s.run ≠ .running ∨ s.mem.valid s.pc = false) : accesses s = [] := by
  rcases h with hstop | hpc
  · rw [accesses, takesStep_of_not_running hstop]
    rfl
  · rw [accesses, hpc, Bool.not_false, Bool.or_true, if_pos rfl]

/-- A step that fetches makes the fetch and then its instruction's data access, by the table's `mem_rd` and `mem_wr`. -/
theorem accesses_of_fetch (hrun : s.run = .running) (hpc : s.mem.valid s.pc = true) :
    accesses s = .fetch s.pc :: dataAccess s (instrAt s s.pc.toNat) := by
  obtain ⟨iw, hiw⟩ : ∃ iw, s.mem.cell s.pc.toNat = iw := ⟨_, rfl⟩
  have hop := opcodeField_eq_bits iw
  rw [instrAt, accesses, (takesStep_iff s).mpr hrun, hpc, hiw]
  cases ho : (decode iw).opcode with
  | add => rw [ho] at hop; simp [decode_of_add hop, dataAccess, controlRow, hop]
  | nor => rw [ho] at hop; simp [decode_of_nor hop, dataAccess, controlRow, hop]
  | lw => rw [ho] at hop; simp [decode_of_lw hop, dataAccess, controlRow, hop]
  | sw => rw [ho] at hop; simp [decode_of_sw hop, dataAccess, controlRow, hop]
  | beq => rw [ho] at hop; simp [decode_of_beq hop, dataAccess, controlRow, hop]
  | jalr => rw [ho] at hop; simp [decode_of_jalr hop, dataAccess, controlRow, hop]
  | halt => rw [ho] at hop; simp [decode_of_halt hop, dataAccess, controlRow, hop]
  | noop => rw [ho] at hop; simp [decode_of_noop hop, dataAccess, controlRow, hop]

/-- Memory after an instruction is memory before it with the data access made. -/
theorem exec_mem_eq_dataAccess {i : Instr} (h : exec i s = .next t) :
    t.mem = (dataAccess s i).foldl applyAccess s.mem := by
  by_cases hsw : ∃ a b off, i = .sw a b off
  · obtain ⟨a, b, off, rfl⟩ := hsw
    cases hv : s.mem.valid (effectiveAddress (s.x a) off) with
    | true =>
      rw [exec_sw_valid hv] at h
      cases h
      simp [dataAccess, hv, applyAccess]
    | false =>
      rw [exec_sw_invalid hv] at h
      cases h
      simp [dataAccess, hv]
  · have hread : (dataAccess s i).foldl applyAccess s.mem = s.mem := by
      cases i with
      | lw a b off => cases hv : s.mem.valid (effectiveAddress (s.x a) off) <;> simp [dataAccess, hv, applyAccess]
      | sw a b off => exact absurd ⟨a, b, off, rfl⟩ hsw
      | _ => rfl
    rw [hread, exec_mem_of_not_sw h fun a b off e => hsw ⟨a, b, off, e⟩]

/-- Settles O39: a fetch changes no memory, and the data access is the instruction's. -/
theorem memoryPortAccesses : Obligations.MemoryPortAccesses := by
  refine fun s t h => ⟨?_, fun hrun hpc => ?_, accesses_of_no_fetch⟩
  · rcases step_cases h with ⟨hstop, rfl⟩ | ⟨hrun, hpc, rfl⟩ | ⟨hrun, hpc, hexec⟩
    · rw [accesses_of_no_fetch (.inl hstop)]
      rfl
    · rw [accesses_of_no_fetch (.inr hpc)]
      rfl
    · rw [accesses_of_fetch hrun hpc]
      exact exec_mem_eq_dataAccess hexec
  · refine ⟨_, accesses_of_fetch hrun hpc, fun a b off hi hv => ?_, fun a b off hi hv => ?_, fun k ea haddr hv => ?_,
      fun haddr => dataAccess_of_no_address haddr⟩
    · rw [hi, dataAccess, if_pos hv]
    · rw [hi, dataAccess, if_pos hv]
    · exact dataAccess_of_invalid haddr hv

end Sys2Proof.Machine
end

section
/-! SUPPORT. The image text (30 B.4, 70 section 2): a text of joined lines is cut into those lines, and loading answers
their cells or the number of the first malformed line. -/

namespace Sys2Proof.Machine

/-! ### Joined lines (30 R80) -/

theorem splitLines_last {line : List Char} (hline : '\n' ∉ line) (cur : List Char) :
    splitLines cur line = ([], cur.reverse ++ line) := by
  induction line generalizing cur with
  | nil => simp [splitLines]
  | cons c line ih =>
    obtain ⟨hc, hline⟩ := not_or.mp (List.mem_cons.not.mp hline)
    simp [splitLines, Ne.symm hc, ih hline]

theorem joinLines_singleton (line : List Char) : joinLines [line] = line := by
  simp [joinLines, List.intercalate]

theorem joinLines_cons_cons (line next : List Char) (lines : List (List Char)) :
    joinLines (line :: next :: lines) = line ++ '\n' :: joinLines (next :: lines) := by
  simp [joinLines, List.intercalate]

/-- Joined lines are cut into the lines again, the last one left after the last newline. -/
theorem splitLines_joinLines {lines : List (List Char)} (hne : lines ≠ []) (hlines : ∀ line ∈ lines, '\n' ∉ line) :
    (splitLines [] (joinLines lines)).1 ++ [(splitLines [] (joinLines lines)).2] = lines := by
  induction lines with
  | nil => exact absurd rfl hne
  | cons line lines ih =>
    obtain ⟨hline, hrest⟩ := List.forall_mem_cons.mp hlines
    cases lines with
    | nil => rw [joinLines_singleton, splitLines_last hline]; rfl
    | cons next lines =>
      rw [joinLines_cons_cons, splitLines_line hline]
      exact congrArg (line :: ·) (ih (List.cons_ne_nil _ _) hrest)

/-- Only the text of no lines and that of one empty line are empty. -/
theorem joinLines_ne_nil {lines : List (List Char)} (hne : lines ≠ []) (hempty : lines ≠ [[]]) :
    joinLines lines ≠ [] := by
  match lines with
  | [] => exact absurd rfl hne
  | [line] =>
    rw [joinLines_singleton]
    exact fun h => hempty (by rw [h])
  | line :: next :: lines => simp [joinLines_cons_cons]

theorem parseImage_joinLines {lines : List (List Char)} (hne : lines ≠ []) (hempty : lines ≠ [[]])
    (hlines : ∀ line ∈ lines, '\n' ∉ line) : parseImage (joinLines lines) = parseImageLines 0 lines := by
  rw [parseImage, if_neg (joinLines_ne_nil hne hempty)]
  exact congrArg (parseImageLines 0) (splitLines_joinLines hne hlines)

/-! ### The lines' cells (70 R174) -/

theorem parseImageLines_of_cells {lines : List (List Char)} {cells : List Word}
    (h : lines.map imageLineCell = cells.map some) (k : Nat) : parseImageLines k lines = .ok cells := by
  induction lines generalizing cells k with
  | nil =>
    rw [List.map_nil, eq_comm, List.map_eq_nil_iff] at h
    rw [h, parseImageLines]
  | cons line lines ih =>
    cases cells with
    | nil => cases h
    | cons w cells =>
      obtain ⟨hline, hrest⟩ := List.cons.inj h
      simp only [parseImageLines, hline, ih hrest]

/-- Lines counted from `k0` are refused by the number of the first that has no cell. -/
theorem parseImageLines_of_malformed {lines : List (List Char)} {k : Nat} (hk : k < lines.length)
    (hbad : imageLineCell lines[k] = none)
    (hfirst : ∀ j (hj : j < k), imageLineCell (lines[j]'(Nat.lt_trans hj hk)) ≠ none) (k0 : Nat) :
    parseImageLines k0 lines = .error (.malformedMachineWord (k0 + k)) := by
  induction lines generalizing k k0 with
  | nil => exact absurd hk (Nat.not_lt_zero k)
  | cons line lines ih =>
    cases k with
    | zero =>
      have hline : imageLineCell line = none := hbad
      simp only [parseImageLines, hline, Nat.add_zero]
    | succ k =>
      obtain ⟨w, hw⟩ := Option.ne_none_iff_exists'.mp (hfirst 0 (Nat.succ_pos k))
      have hline : imageLineCell line = some w := hw
      have hrest := ih (k := k) (Nat.lt_of_succ_lt_succ hk) hbad (fun j hj => hfirst (j + 1) (Nat.succ_lt_succ hj))
        (k0 + 1)
      have hnumber : k0 + 1 + k = k0 + (k + 1) := by omega
      simp only [parseImageLines, hline, hrest, hnumber]

theorem loadFile_of_parse {memWords : Nat} {text : List Char} {image : List Word} (h : parseImage text = .ok image) :
    loadFile memWords (some text) = loadImage memWords image := by
  simp only [loadFile, h]

/-- Settles O13: the text is cut into its lines, and the first without a cell is refused. -/
theorem firstMalformedLineRefused : Obligations.FirstMalformedLineRefused := by
  intro memWords lines k hk hempty hlines hbad hfirst
  have hparse : parseImage (joinLines lines) = .error (.malformedMachineWord k) := by
    rw [parseImage_joinLines (List.ne_nil_of_length_pos (Nat.zero_lt_of_lt hk)) hempty hlines,
      parseImageLines_of_malformed hk hbad hfirst 0, Nat.zero_add]
  simp only [loadFile, hparse]

/-- The cell of an output word is that of the number printed for it. -/
theorem MachineWord.cell_eq_cellOfValue (w : MachineWord) : w.cell = cellOfValue w.value := by
  cases w with
  | instr w => rw [cellOfValue, MachineWord.value, BitVec.ofInt_natCast, BitVec.ofNat_toNat, BitVec.setWidth_eq]; rfl
  | fill v => rfl

theorem imageLineCell_value {w : MachineWord} (hw : cellValueOk w.value = true) :
    imageLineCell (intText w.value) = some w.cell := by
  simp only [imageLineCell, parseInt_intText, hw, if_true, w.cell_eq_cellOfValue]

theorem parseImage_machineCodeText {ws : List MachineWord} (hws : ∀ w ∈ ws, cellValueOk w.value = true) :
    parseImage (machineCodeText ws) = .ok (ws.map MachineWord.cell) := by
  by_cases hnil : ws = []
  · rw [hnil]
    rfl
  have htoken : ∀ line ∈ ws.map (fun w => intText w.value), IsToken line := by
    intro line hline
    obtain ⟨w, -, rfl⟩ := List.mem_map.mp hline
    exact isToken_intText w.value
  have hempty : ws.map (fun w => intText w.value) ≠ [[]] := by
    intro h
    exact (htoken [] (by rw [h]; exact List.mem_cons_self)).1 rfl
  rw [machineCodeText, parseImage_joinLines (List.map_eq_nil_iff.not.mpr hnil) hempty
    fun line hline hmem => ((htoken line hline).2 _ hmem).2 rfl]
  refine parseImageLines_of_cells ?_ 0
  rw [List.map_map, List.map_map]
  exact List.map_congr_left fun w hw => imageLineCell_value (hws w hw)

/-- Settles O12: each line is a token, read back as the number it prints. -/
theorem machineCodeTextLoads : Obligations.MachineCodeTextLoads := fun _ _ hws =>
  loadFile_of_parse (parseImage_machineCodeText hws)

end Sys2Proof.Machine
end

section
/-! SUPPORT. Labels (30 B.2): pass 1 enters each label with its line's number, or finds it defined twice; and numeric
operands (30 B.3) at the bounds of their range. -/

namespace Sys2Proof.Machine

/-- Settles O47: the statement of an instruction assembles to its word. -/
theorem numericStatementsAssemble : Obligations.NumericStatementsAssemble := assembleLine_instrText

/-! ### The label table (30 R70) -/

theorem lookupLabel_append_of_some {table more : LabelTable} {label : List Char} {a : Nat}
    (h : lookupLabel table label = some a) : lookupLabel (table ++ more) label = some a := by
  induction table with
  | nil => cases h
  | cons entry table ih =>
    obtain ⟨l, b⟩ := entry
    rw [List.cons_append, lookupLabel]
    rw [lookupLabel] at h
    split
    · next hl => rwa [if_pos hl] at h
    · next hl => exact ih (by rwa [if_neg hl] at h)

theorem lookupLabel_append_self {table : LabelTable} {label : List Char} (a : Nat)
    (h : lookupLabel table label = none) : lookupLabel (table ++ [(label, a)]) label = some a := by
  induction table with
  | nil => exact if_pos rfl
  | cons entry table ih =>
    obtain ⟨l, b⟩ := entry
    rw [List.cons_append, lookupLabel]
    rw [lookupLabel] at h
    split
    · next hl => rw [if_pos hl] at h; cases h
    · next hl => exact ih (by rwa [if_neg hl] at h)

/-- A line that pass 1 passes enters its label, if it has one, which the table did not hold. -/
theorem buildTable_cons_ok {p : AsmParams} {addr : Nat} {table final : LabelTable} {line : List Char}
    {rest : List (List Char)} (h : buildTable p addr table (line :: rest) = .ok final) :
    ((parseLine line).label = none ∧ buildTable p (addr + 1) table rest = .ok final) ∨
    ∃ l, (parseLine line).label = some l ∧ lookupLabel table l = none ∧
      buildTable p (addr + 1) (table ++ [(l, addr)]) rest = .ok final := by
  rw [buildTable] at h
  split at h
  · cases h
  · split at h
    · next hlabel => exact .inl ⟨hlabel, h⟩
    · next l hlabel =>
      split at h
      · cases h
      · next hnew =>
        split at h
        · cases h
        · exact .inr ⟨l, hlabel, by simpa using hnew, h⟩

/-- Pass 1 forgets no label. -/
theorem lookupLabel_of_buildTable {p : AsmParams} {lines : List (List Char)} {addr : Nat} {table final : LabelTable}
    (h : buildTable p addr table lines = .ok final) {label : List Char} {a : Nat}
    (ha : lookupLabel table label = some a) : lookupLabel final label = some a := by
  induction lines generalizing addr table with
  | nil => cases h; exact ha
  | cons line rest ih =>
    rcases buildTable_cons_ok h with ⟨-, h⟩ | ⟨l, -, -, h⟩
    · exact ih h ha
    · exact ih h (lookupLabel_append_of_some ha)

/-- Pass 1 enters the label of line `k`, counted from `addr`. -/
theorem lookupLabel_line_of_buildTable {p : AsmParams} {lines : List (List Char)} {addr : Nat}
    {table final : LabelTable} (h : buildTable p addr table lines = .ok final) {k : Nat} (hk : k < lines.length)
    {label : List Char} (hlabel : (parseLine lines[k]).label = some label) :
    lookupLabel final label = some (addr + k) := by
  induction lines generalizing addr table k with
  | nil => exact absurd hk (Nat.not_lt_zero k)
  | cons line rest ih =>
    cases k with
    | zero =>
      have hline : (parseLine line).label = some label := hlabel
      rcases buildTable_cons_ok h with ⟨hnone, -⟩ | ⟨l, hsome, hnew, h⟩
      · rw [hnone] at hline; cases hline
      · rw [hsome] at hline
        cases hline
        exact lookupLabel_of_buildTable h (lookupLabel_append_self addr hnew)
    | succ k =>
      have hshift : addr + 1 + k = addr + (k + 1) := by omega
      have hk' := Nat.lt_of_succ_lt_succ hk
      rcases buildTable_cons_ok h with ⟨-, h⟩ | ⟨l, -, -, h⟩
      · exact hshift ▸ ih h hk' hlabel
      · exact hshift ▸ ih h hk' hlabel

/-- Settles O50: addresses count from 0. -/
theorem labelResolvesToItsLine : Obligations.LabelResolvesToItsLine := by
  intro p lines table h k hk label hlabel
  rw [lookupLabel_line_of_buildTable h hk hlabel, Nat.zero_add]

/-- Within `MAXLINE` and `MAXLABELS` the one error of pass 1 is the duplicate (log 4). -/
theorem buildTable_ok_or_duplicate {p : AsmParams} {lines : List (List Char)} (addr : Nat) {table : LabelTable}
    (hlen : ∀ line ∈ lines, line.length ≤ p.maxLine) (hroom : table.length + lines.length ≤ p.maxLabels) :
    (∃ final, buildTable p addr table lines = .ok final) ∨
    ∃ l, buildTable p addr table lines = .error (.duplicateLabel l) := by
  induction lines generalizing addr table with
  | nil => exact .inl ⟨table, rfl⟩
  | cons line rest ih =>
    obtain ⟨hline, hrest⟩ := List.forall_mem_cons.mp hlen
    rw [List.length_cons] at hroom
    rw [buildTable, if_neg (Nat.not_lt.mpr hline)]
    split
    · exact ih _ hrest (by omega)
    · next l _ =>
      split
      · exact .inr ⟨l, rfl⟩
      · rw [if_neg (by omega)]
        exact ih _ hrest (by rw [List.length_append, List.length_singleton]; omega)

/-- Settles O51: were there a table, it would hold the label with both lines' numbers. -/
theorem duplicateLabelIsFatal : Obligations.DuplicateLabelIsFatal := by
  intro p source j k hk hj label hlen hroom hlabelj hlabelk
  rcases buildTable_ok_or_duplicate (table := []) 0 hlen (by simpa using hroom) with ⟨table, htable⟩ | ⟨l, hdup⟩
  · have haddrj := lookupLabel_line_of_buildTable htable _ hlabelj
    have haddrk := lookupLabel_line_of_buildTable htable hk hlabelk
    rw [haddrj, Option.some.injEq] at haddrk
    omega
  · exact ⟨l, by simp only [assemble, hdup]⟩

/-! ### Numeric operands (30 R74, R76) -/

theorem valueOperand_of_overflow {table : LabelTable} {ofLabel : Nat → Int} {inRange : Int → Bool}
    {args : List (List Char)} {k : Nat} {v : Int} (h : parseInt (args.getD k []) = some v) (hv : inRange v = false) :
    valueOperand table ofLabel inRange args k = .error .argOverflow := by
  simp only [valueOperand, h, hv, Bool.false_eq_true, if_false]

theorem statementI_of_overflow {table : LabelTable} {ofLabel : Nat → Int} {args : List (List Char)} {a b : RegNum}
    {mk : RegNum → RegNum → OffsetField → Instr} (ha : registerOperand args 0 = .ok a)
    (hb : registerOperand args 1 = .ok b) (hv : valueOperand table ofLabel offsetOk args 2 = .error .argOverflow) :
    statementI table ofLabel args mk = .error .argOverflow := by
  rw [statementI, ha, hb, hv]
  rfl

/-- The statements of `lw`, `sw` and `beq` are those of the I-format, apart from what a label stands for. -/
theorem statement_offset {m : List Char} {mk : RegNum → RegNum → OffsetField → Instr}
    (h : (m, mk) ∈ [("lw".toList, Instr.lw), ("sw".toList, Instr.sw), ("beq".toList, Instr.beq)])
    (table : LabelTable) (addr : Nat) :
    ∃ o ofLabel, m = mnemonicText o ∧ (Mnemonic.op o).arity = 3 ∧
      ∀ args, statement table addr args (.op o) = statementI table ofLabel args mk := by
  simp only [List.mem_cons, Prod.mk.injEq, List.not_mem_nil, or_false] at h
  rcases h with ⟨rfl, rfl⟩ | ⟨rfl, rfl⟩ | ⟨rfl, rfl⟩
  · exact ⟨.lw, _, rfl, rfl, fun _ => rfl⟩
  · exact ⟨.sw, _, rfl, rfl, fun _ => rfl⟩
  · exact ⟨.beq, _, rfl, rfl, fun _ => rfl⟩

/-- A statement in decimal is a line of numeric tokens. -/
theorem parseLine_decimal {o : Opcode} {line : List Char} {a b : RegNum} {v : Int}
    (h : line = ' ' :: mnemonicText o ++ ' ' :: natText a.toNat ++ ' ' :: natText b.toNat ++ ' ' :: intText v) :
    parseLine line = ⟨none, mnemonicText o, [natText a.toNat, natText b.toNat, intText v]⟩ := by
  have htok : ∀ t ∈ mnemonicText o :: [natText a.toNat, natText b.toNat, intText v], IsToken t := by
    simp [isToken_mnemonicText, isToken_natText, isToken_intText]
  have hline : line = spaced (mnemonicText o :: [natText a.toNat, natText b.toNat, intText v]) := by
    simp [h, spaced]
  rw [hline, parseLine_spaced htok]
  rfl

/-- Settles O52: both spellings are numeric tokens of these values, and the value operand is checked last. -/
theorem numericOffsetRange : Obligations.NumericOffsetRange := by
  intro table addr a b v m mk line hm hline
  obtain ⟨o, ofLabel, rfl, harity, hstatement⟩ := statement_offset hm table addr
  have htokens : (parseLine line).mnemonic = mnemonicText o ∧ ∃ ta tb tc, (parseLine line).args = [ta, tb, tc] ∧
      parseInt ta = some (a.toNat : Int) ∧ parseInt tb = some (b.toNat : Int) ∧ parseInt tc = some v := by
    rcases hline with hdecimal | htokens
    · rw [parseLine_decimal hdecimal]
      exact ⟨rfl, _, _, _, rfl, parseInt_natText _, parseInt_natText _, parseInt_intText v⟩
    · exact htokens
  obtain ⟨hname, ta, tb, tc, hargs, ha, hb, hv⟩ := htokens
  have hassemble : assembleLine table addr line = statementI table ofLabel [ta, tb, tc] mk := by
    rw [assembleLine_eq_statement (m := .op o) (by rw [hname, mnemonicOf_mnemonicText]) (by rw [hargs, harity]; rfl),
      hstatement, hargs]
  have hra : registerOperand [ta, tb, tc] 0 = .ok a := registerOperand_of_parseInt ha
  have hrb : registerOperand [ta, tb, tc] 1 = .ok b := registerOperand_of_parseInt hb
  rw [hassemble]
  refine ⟨fun hin => ?_, fun hout => ?_⟩
  · exact statementI_of_operands hra hrb (valueOperand_of_number hv ((offsetOk_iff v).mpr hin))
  · have hbad : offsetOk v = false := Bool.eq_false_iff.mpr fun hok => by
      have := (offsetOk_iff v).mp hok
      omega
    exact statementI_of_overflow hra hrb (valueOperand_of_overflow hv hbad)

theorem disassembleLine_fill (v : Int) : disassembleLine (.fill v) = " .fill ".toList ++ intText v := by
  simp [disassembleLine, fillText]

theorem assembleLine_fill_of_overflow (table : LabelTable) (addr : Nat) {v : Int} (hv : cellValueOk v = false) :
    assembleLine table addr (disassembleLine (.fill v)) = .error .argOverflow := by
  have hoperand : valueOperand table (fun a => (a : Int)) cellValueOk [intText v] 0 = .error .argOverflow :=
    valueOperand_of_overflow (parseInt_intText v) hv
  rw [disassembleLine_eq_spaced, lineTokens, assembleLine_spaced (isToken_lineTokens (.fill v)) mnemonicOf_fillText rfl,
    statement, hoperand]
  rfl

/-- Settles O53: the value is checked against the signed range and then kept as its pattern. -/
theorem fillGivesValueModulo : Obligations.FillGivesValueModulo := by
  intro table addr v
  rw [← disassembleLine_fill]
  refine ⟨fun hin => ⟨assembleLine_fill table addr ?_, toNat_ofInt_word v⟩,
    fun hout => assembleLine_fill_of_overflow table addr (Bool.eq_false_iff.mpr fun hok => ?_), rfl⟩
  · exact (cellValueOk_iff v).mpr (by omega)
  · have := (cellValueOk_iff v).mp hok
    omega

end Sys2Proof.Machine
end
